-- ==== Sys2Proof/Word.lean ====
section
/-! DEFINITION. The one data width of the machine (00_scope.md R3, R4): the unsigned byte. -/

namespace Sys2Proof

/-- An unsigned 8-bit value, 0 to 255, bit 7 the most significant (00_scope.md R4 and section 6.1). -/
abbrev Byte := BitVec 8

end Sys2Proof
end

