-- ==== Sys2Proof/Config.lean ====
section
/-! DEFINITION. The implementation parameters of 00_scope.md R3. They are fixed numbers, not options. The opcode map
(92_eei_decisions.md D1) is `opcodeByte` in Decode.lean, the one table of the 18 byte values. No behaviour of this machine is left as
a free value (93_implementation_defined.md Part 1), so there is no opaque constant here. -/

namespace Sys2Proof.Config

/-- `NREG`: the number of general registers (R3). -/
abbrev numRegs : Nat := 8

/-- `MEMSIZE`: the number of memory cells. Valid addresses, and valid values of the pc, are 0 to 255 (R3). -/
abbrev memSize : Nat := 256

/-- The length in bytes of the longest instruction (R3, R50). -/
abbrev maxLength : Nat := 3

end Sys2Proof.Config
end

