-- ==== Sys2Proof/Syntax.lean ====
section
/-! DEFINITION. The 18 operations of the closed instruction set (00_scope.md R2, 30_encoding.md R56), the four formats (R51) and the
instructions as the engine sees them after operand fetch: an operation with its operand BYTES. A register operand is the whole operand
byte (R53): a byte above 7 there is no other instruction but a fault of this one (R54), so an instruction keeps the byte. -/

namespace Sys2Proof

/-- The index of a general register, `x0` to `x7` (10_state.md R10). -/
abbrev RegId := Fin Config.numRegs

/-- The 16 operations that go through the ALU (40_execution_cycle.md R84, R85). -/
inductive AluOp where
  | ldi | add | sub | mul | div | mod | and | or | xor | not | shl | shr | jmp | jeq | jne | cmp
  deriving DecidableEq, Repr

/-- The 18 operations, sorted by the unit the opcode dispatch multiplexer selects (R85): the ALU, the output port (PRN) or
the run-state control (HLT). -/
inductive Op where
  | alu (f : AluOp)
  | prn
  | hlt
  deriving DecidableEq, Repr

/-- The four instruction formats (30_encoding.md R51). -/
inductive Format where
  /-- opcode -/
  | f0
  /-- opcode, `ra` -/
  | f1
  /-- opcode, `ra`, `rb` -/
  | f2r
  /-- opcode, `ra`, `imm` -/
  | f2i
  deriving DecidableEq, Repr

/-- An instruction: one constructor per row of spec/opcode_table.json. `ra` and `rb` are the operand bytes in a register position, not
yet validated (40_execution_cycle.md R74); `imm` is the immediate byte. -/
inductive Instr where
  /-- load-immediate (R90) -/
  | ldi (ra imm : Byte)
  /-- print (R91) -/
  | prn (ra : Byte)
  /-- add (R100) -/
  | add (ra rb : Byte)
  /-- subtract (R101) -/
  | sub (ra rb : Byte)
  /-- multiply (R102) -/
  | mul (ra rb : Byte)
  /-- divide (R103) -/
  | div (ra rb : Byte)
  /-- modulo (R104) -/
  | mod (ra rb : Byte)
  /-- and (R120) -/
  | and (ra rb : Byte)
  /-- or (R121) -/
  | or (ra rb : Byte)
  /-- xor (R122) -/
  | xor (ra rb : Byte)
  /-- not (R123) -/
  | not (ra : Byte)
  /-- shift-left (R124) -/
  | shl (ra rb : Byte)
  /-- shift-right (R125) -/
  | shr (ra rb : Byte)
  /-- unconditional jump (R140) -/
  | jmp (ra : Byte)
  /-- jump-if-equal (R141) -/
  | jeq (ra : Byte)
  /-- jump-if-not-equal (R142) -/
  | jne (ra : Byte)
  /-- compare (R150) -/
  | cmp (ra rb : Byte)
  /-- halt (R155) -/
  | hlt
  deriving DecidableEq, Repr

end Sys2Proof
end

