-- ==== Sys2Proof/WellFormed.lean ====
section
/-! DEFINITION. Which instructions are legal: every operand byte in a register position is 0 to 7 (30_encoding.md R54, R66). An
instruction that is not legal still has a meaning: it raises RegisterIndexOutOfRange (R54). -/

namespace Sys2Proof

/-- The operand bytes in a register position, in the order they are validated: `ra` first, then `rb` (R54). The immediate of
LDI is not among them (R66). -/
def Instr.regBytes : Instr → List Byte
  | .ldi ra _ => [ra]
  | .prn ra => [ra]
  | .add ra rb => [ra, rb]
  | .sub ra rb => [ra, rb]
  | .mul ra rb => [ra, rb]
  | .div ra rb => [ra, rb]
  | .mod ra rb => [ra, rb]
  | .and ra rb => [ra, rb]
  | .or ra rb => [ra, rb]
  | .xor ra rb => [ra, rb]
  | .not ra => [ra]
  | .shl ra rb => [ra, rb]
  | .shr ra rb => [ra, rb]
  | .jmp ra => [ra]
  | .jeq ra => [ra]
  | .jne ra => [ra]
  | .cmp ra rb => [ra, rb]
  | .hlt => []

/-- Whether an operand byte is a legal register index, 0 to 7 (R54). -/
def legalIndex (b : Byte) : Bool := decide (b.toNat < Config.numRegs)

/-- A legal instruction: every register position holds a legal index. -/
def Instr.wf (i : Instr) : Bool := i.regBytes.all legalIndex

end Sys2Proof
end

