-- ==== Sys2Proof/Decode.lean ====
section
/-! DEFINITION. The opcode map, the decoder and the encoder (30_encoding.md R50 to R62, R66). Decoding matches the WHOLE opcode byte
against the 18 values (R57), takes the length from it alone (R59), reads exactly the operand bytes the opcode owns (40_execution_cycle.md
R73) and depends on nothing else (R62). It is total: any bytes give an instruction or a rejection by name. -/

namespace Sys2Proof

/-- `OPCODE_MAP`: the byte of each operation (R56). UNVERIFIED, unsafe: the spec takes the 18 values from general knowledge (the LS-8
set; 92_eei_decisions.md D1, 93 G1), see notes/assumptions/1.md. -/
def opcodeByte : Op → Byte
  | .alu .ldi => 0x82
  | .prn => 0x47
  | .alu .add => 0xA0
  | .alu .sub => 0xA1
  | .alu .mul => 0xA2
  | .alu .div => 0xA3
  | .alu .mod => 0xA4
  | .alu .and => 0xA8
  | .alu .or => 0xAA
  | .alu .xor => 0xAB
  | .alu .not => 0x69
  | .alu .shl => 0xAC
  | .alu .shr => 0xAD
  | .alu .jmp => 0x54
  | .alu .jeq => 0x55
  | .alu .jne => 0x56
  | .alu .cmp => 0xA7
  | .hlt => 0x01

/-- The 18 operations in the order of R56's table. -/
def allOps : List Op :=
  [.alu .ldi, .prn, .alu .add, .alu .sub, .alu .mul, .alu .div, .alu .mod, .alu .and, .alu .or, .alu .xor, .alu .not, .alu .shl,
    .alu .shr, .alu .jmp, .alu .jeq, .alu .jne, .alu .cmp, .hlt]

/-- The operation whose opcode byte is exactly `b`, or none: the byte is then unsupported (R57, R60). -/
def lookupOp (b : Byte) : Option Op := allOps.find? fun op => decide (opcodeByte op = b)

/-- The format of each operation (R51, R56). -/
def opFormat : Op → Format
  | .hlt => .f0
  | .prn => .f1
  | .alu .not => .f1
  | .alu .jmp => .f1
  | .alu .jeq => .f1
  | .alu .jne => .f1
  | .alu .ldi => .f2i
  | .alu .add => .f2r
  | .alu .sub => .f2r
  | .alu .mul => .f2r
  | .alu .div => .f2r
  | .alu .mod => .f2r
  | .alu .and => .f2r
  | .alu .or => .f2r
  | .alu .xor => .f2r
  | .alu .shl => .f2r
  | .alu .shr => .f2r
  | .alu .cmp => .f2r

/-- The number of operand bytes that follow the opcode (R50, R51). -/
def operandCount (op : Op) : Nat :=
  match opFormat op with
  | .f0 => 0
  | .f1 => 1
  | .f2r => 2
  | .f2i => 2

/-- The operation of an instruction. -/
def instrOp : Instr → Op
  | .ldi _ _ => .alu .ldi
  | .prn _ => .prn
  | .add _ _ => .alu .add
  | .sub _ _ => .alu .sub
  | .mul _ _ => .alu .mul
  | .div _ _ => .alu .div
  | .mod _ _ => .alu .mod
  | .and _ _ => .alu .and
  | .or _ _ => .alu .or
  | .xor _ _ => .alu .xor
  | .not _ => .alu .not
  | .shl _ _ => .alu .shl
  | .shr _ _ => .alu .shr
  | .jmp _ => .alu .jmp
  | .jeq _ => .alu .jeq
  | .jne _ => .alu .jne
  | .cmp _ _ => .alu .cmp
  | .hlt => .hlt

/-- The length of an instruction in bytes, `1 + operand_count` (R50). -/
def instrLength (i : Instr) : Nat := 1 + operandCount (instrOp i)

/-- The instruction of an operation and its operand bytes `b1` at `pc + 1` and `b2` at `pc + 2` (R51: the first is `ra`, the second `rb` or
the immediate). An operand the operation does not own is not looked at. -/
def assemble : Op → Byte → Byte → Instr
  | .alu .ldi, b1, b2 => .ldi b1 b2
  | .prn, b1, _ => .prn b1
  | .alu .add, b1, b2 => .add b1 b2
  | .alu .sub, b1, b2 => .sub b1 b2
  | .alu .mul, b1, b2 => .mul b1 b2
  | .alu .div, b1, b2 => .div b1 b2
  | .alu .mod, b1, b2 => .mod b1 b2
  | .alu .and, b1, b2 => .and b1 b2
  | .alu .or, b1, b2 => .or b1 b2
  | .alu .xor, b1, b2 => .xor b1 b2
  | .alu .not, b1, _ => .not b1
  | .alu .shl, b1, b2 => .shl b1 b2
  | .alu .shr, b1, b2 => .shr b1 b2
  | .alu .jmp, b1, _ => .jmp b1
  | .alu .jeq, b1, _ => .jeq b1
  | .alu .jne, b1, _ => .jne b1
  | .alu .cmp, b1, b2 => .cmp b1 b2
  | .hlt, _, _ => .hlt

/-- Why no instruction can be read. `ε` is what the source of the bytes says of a byte it cannot give. -/
inductive DecodeReject (ε : Type) where
  /-- The opcode byte itself cannot be had; no opcode is known (60_exceptions.md R167). -/
  | opcodeUnread (why : ε)
  /-- The opcode byte is none of the 18 values (R60). -/
  | unsupported (op : Byte)
  /-- An operand byte of the opcode `op` cannot be had (R73). -/
  | operandUnread (op : Byte) (why : ε)
  deriving DecidableEq, Repr

/-- Reads one instruction from a source of bytes, `byteAt k` being the byte at offset `k` from the opcode: the opcode first, then its operand
bytes in ascending order and no more (40_execution_cycle.md R71 to R73). The decoder of a list of bytes and the engine's fetch are both
this function. -/
def decodeFrom {ε : Type} (byteAt : Nat → Except ε Byte) : Except (DecodeReject ε) Instr :=
  match byteAt 0 with
  | .error e => .error (.opcodeUnread e)
  | .ok o =>
    match lookupOp o with
    | none => .error (.unsupported o)
    | some op =>
      match operandCount op with
      | 0 => .ok (assemble op 0 0)
      | 1 =>
        match byteAt 1 with
        | .error e => .error (.operandUnread o e)
        | .ok b1 => .ok (assemble op b1 0)
      | _ =>
        match byteAt 1 with
        | .error e => .error (.operandUnread o e)
        | .ok b1 =>
          match byteAt 2 with
          | .error e => .error (.operandUnread o e)
          | .ok b2 => .ok (assemble op b1 b2)

/-- The byte at an offset of a list of bytes, or the offset at which the list has none. -/
def listByte (bs : List Byte) (k : Nat) : Except Nat Byte :=
  match bs[k]? with
  | some b => .ok b
  | none => .error k

/-- Reads the first instruction of a list of bytes and gives it with the rest of the list. A rejection for want of a byte names the offset
of the missing byte. -/
def decode (bs : List Byte) : Except (DecodeReject Nat) (Instr × List Byte) :=
  match decodeFrom (listByte bs) with
  | .error r => .error r
  | .ok i => .ok (i, bs.drop (instrLength i))

/-- The operand bytes of an instruction, in ascending address order (R51). -/
def operandBytes : Instr → List Byte
  | .ldi ra imm => [ra, imm]
  | .prn ra => [ra]
  | .add ra rb => [ra, rb]
  | .sub ra rb => [ra, rb]
  | .mul ra rb => [ra, rb]
  | .div ra rb => [ra, rb]
  | .mod ra rb => [ra, rb]
  | .and ra rb => [ra, rb]
  | .or ra rb => [ra, rb]
  | .xor ra rb => [ra, rb]
  | .not ra => [ra]
  | .shl ra rb => [ra, rb]
  | .shr ra rb => [ra, rb]
  | .jmp ra => [ra]
  | .jeq ra => [ra]
  | .jne ra => [ra]
  | .cmp ra rb => [ra, rb]
  | .hlt => []

/-- The bytes of an instruction: the opcode byte, then its operand bytes, at ascending addresses (R51, R52). -/
def encode (i : Instr) : List Byte := opcodeByte (instrOp i) :: operandBytes i

/-- The operand byte that names register `r` (R51: `00000aaa`). -/
def regByte (r : RegId) : Byte := BitVec.ofNat 8 r.val

/-- The bytes of a table word: bit 0 of `w` is the least significant bit of the first byte, every bit from `nbits` on is 0, and the
bytes go on to the longest instruction's length. -/
def tableBytes (nbits w : Nat) : List Byte :=
  (List.range Config.maxLength).map fun k => BitVec.ofNat 8 (w % 2 ^ nbits / 2 ^ (8 * k))

/-- The instruction the decoder reads from a word numbered as spec/opcode_table.json numbers it. -/
def decodeTableWord (nbits w : Nat) : Option Instr :=
  match decode (tableBytes nbits w) with
  | .ok (i, _) => some i
  | .error _ => none

end Sys2Proof
end

