-- ==== Sys2Proof/Machine/State.lean ====
section
/-! DEFINITION. The complete state of the machine as 10_state.md lists it, as plain data, and its reset value (R26). The fault of the
SPEC is a state of the machine, not a stop of the model: `Fault` below names only the two states in which the engine has no step. -/

namespace Sys2Proof.Machine

/-- The run state of the engine (10_state.md R19). -/
inductive RunState where
  | running
  | halted
  | faulted
  deriving DecidableEq, Repr

/-- The five kinds of fault the core raises (60_exceptions.md R160). The name is the identity; the ordinals are `faultCode`. -/
inductive FaultKind where
  | addressOutOfRange
  | unsupportedOperation
  | divisionByZero
  | uninitializedMemoryRead
  | registerIndexOutOfRange
  deriving DecidableEq, Repr

/-- What a check raises: the kind and its one datum, the offending address, opcode byte, operand byte or register index (R160). -/
structure Cause where
  kind : FaultKind
  info : Nat
  deriving DecidableEq, Repr

/-- The fault record (10_state.md R20): the kind, the address of the faulting opcode, the opcode byte or none where none was obtained
(60_exceptions.md R167), and the datum. An abstract record: the spec defines no bit layout. -/
structure FaultRecord where
  kind : FaultKind
  pc : Byte
  opcode : Option Byte
  info : Nat
  deriving DecidableEq, Repr

/-- Memory: the cells that are SET, as (address, byte) pairs; an address not listed is an unset cell (10_state.md R22, R23). -/
abbrev Memory := List Host.Cell

/-- The addresses rise strictly from `lo` on and stay below the memory's size. -/
def risingFrom (lo : Nat) : Memory → Bool
  | [] => true
  | (a, _) :: rest => decide (lo ≤ a) && decide (a < Config.memSize) && risingFrom (a + 1) rest

/-- The canonical form of a memory: strictly rising addresses, all in 0 to 255. An unset cell has no byte, so no entry can equal what an
unlisted address reads as. -/
def Memory.wf (m : Memory) : Bool := risingFrom 0 m

/-- The state of the machine (10_state.md, head: nothing else is state). -/
structure State where
  /-- the 8 general registers (R10) -/
  x : Vector Byte Config.numRegs
  /-- the program counter, the address of the current instruction's opcode (R13, R14) -/
  pc : Byte
  /-- the equal flag `E`, a set-only latch (R16) -/
  e : Bool
  /-- the run state (R19) -/
  run : RunState
  /-- the fault record, none while no fault is recorded (R20) -/
  fault : Option FaultRecord
  /-- the 256 memory cells (R22) -/
  mem : Memory
  /-- the output log, oldest byte first (R24) -/
  out : List Byte
  deriving DecidableEq, Repr

/-- The machine right after reset (R26, 70_reset_and_hazards.md R190): every cell unset, everything else 0, false, empty, and `Running` as
95_test_vectors.md V-RST gives it. -/
def State.reset : State where
  x := Vector.replicate Config.numRegs 0
  pc := 0
  e := false
  run := .running
  fault := none
  mem := []
  out := []

/-- Why `step` has no next state. Raised by `step` alone, never by an instruction. -/
inductive Fault where
  /-- Raised by `step` in `Halted`, where the engine has no step (40_execution_cycle.md R70, 46_halt.md R156). Safe: the hardware does
  nothing there either. -/
  | engineHalted
  /-- Raised by `step` in `Faulted`, where the engine has no step (R70, 60_exceptions.md R169). Safe: the hardware does nothing there
  either. -/
  | engineFaulted
  deriving DecidableEq, Repr

/-- Why an instruction has no meaning in this model. -/
inductive Refusal where
  /-- Raised by an arm of `exec` for an instruction that is not modelled yet. Safe: nothing can be proved of it. No arm raises it in
  this model. -/
  | notModelled (mnemonic : String)
  deriving DecidableEq, Repr

/-- What a step or a meaning answers. -/
abbrev Outcome := Host.Outcome State Fault Refusal

end Sys2Proof.Machine
end

