-- ==== Sys2Proof/Machine/Ops.lean ====
section
/-! DEFINITION. The named operations over memory, registers, the pc and the output log, raising a fault, the sequential advance, and the
engine's fetch. Every reader and writer of the state goes through one of these. -/

namespace Sys2Proof.Machine

/-- `trunc8`: the value modulo 256, mathematically, so that `trunc8 (-1) = 255` (00_scope.md section 6.1). -/
def trunc8 (n : Int) : Byte := BitVec.ofInt 8 n

/-! ### Memory (20_memory.md) -/

/-- The byte of a set cell, or none for an unset one (10_state.md R23). -/
def lookupCell : Memory → Nat → Option Byte
  | [], _ => none
  | (a, v) :: rest, addr => if a = addr then some v else lookupCell rest addr

/-- `MemRead(addr, 1)` (R30): the range check comes first; an unset cell is never read as a value. -/
def memRead (m : Memory) (addr : Nat) : Except Cause Byte :=
  if Config.memSize ≤ addr then .error ⟨.addressOutOfRange, addr⟩
  else
    match lookupCell m addr with
    | none => .error ⟨.uninitializedMemoryRead, addr⟩
    | some v => .ok v

/-- Sets the cell at `addr`, keeping the addresses in rising order. -/
def setCell (addr : Nat) (v : Byte) : Memory → Memory
  | [] => [(addr, v)]
  | (a, w) :: rest =>
    if addr < a then (addr, v) :: (a, w) :: rest
    else if a = addr then (addr, v) :: rest
    else (a, w) :: setCell addr v rest

/-- `MemWrite(addr, 1, v)` (R31): the value is truncated to 8 bits, the cell becomes set. No instruction calls it (R32); the host's load
does. -/
def memWrite (m : Memory) (addr : Nat) (v : Nat) : Except Cause Memory :=
  if Config.memSize ≤ addr then .error ⟨.addressOutOfRange, addr⟩
  else .ok (setCell addr (trunc8 v) m)

/-! ### Registers, pc, run state, output (10_state.md) -/

/-- `x[r]` (R10). -/
def readReg (r : RegId) (s : State) : Byte := s.x[r.val]

/-- `x[r] <- v` (R10). -/
def writeReg (r : RegId) (v : Byte) (s : State) : State := { s with x := s.x.set r.val v }

/-- `pc <- target` (R13). -/
def writePc (target : Byte) (s : State) : State := { s with pc := target }

/-- `run <- Halted` (R19, 46_halt.md R155). -/
def enterHalted (s : State) : State := { s with run := .halted }

/-- `emit(v)`: appends the byte to the output log (R24). The output port always accepts (70_reset_and_hazards.md R199). -/
def emit (v : Byte) (s : State) : State := { s with out := s.out ++ [v] }

/-! ### Faults (60_exceptions.md) -/

/-- `raise K(info)` (R166): the record is filled with the kind, the pc (which is not changed), the opcode byte or none, and the datum, and
the engine enters `Faulted`. Registers, pc, E, memory and output are not touched. There is no handler, no vector and no return (R169):
only reset leaves `Faulted`. -/
def raise (opcode : Option Byte) (c : Cause) (s : State) : State :=
  { s with run := .faulted, fault := some ⟨c.kind, s.pc, opcode, c.info⟩ }

/-- The ordinal of a fault kind, the spec's own numbering (R160). -/
def faultCode : FaultKind → Nat
  | .addressOutOfRange => 1
  | .unsupportedOperation => 2
  | .divisionByZero => 3
  | .uninitializedMemoryRead => 4
  | .registerIndexOutOfRange => 5

/-! ### The parts of a step (40_execution_cycle.md) -/

/-- `advance(n)` (R76): the pc moves by the length `1 + n`; where that leaves 0 to 255 the instruction `op` faults with the effects it has made
kept and the pc unchanged. The pc never wraps. -/
def advance (op : Op) (n : Nat) (s : State) : State :=
  if Config.memSize ≤ s.pc.toNat + 1 + n then
    raise (some (opcodeByte op)) ⟨.addressOutOfRange, s.pc.toNat + 1 + n⟩ s
  else writePc (BitVec.ofNat 8 (s.pc.toNat + 1 + n)) s

/-- Fetch, decode and operand fetch (R71 to R73): the instruction at the pc, read byte by byte from memory. Operand bytes are addressed as
`pc + 1` and `pc + 2` as naturals, so an address can be above 255. -/
def fetch (s : State) : Except (DecodeReject Cause) Instr :=
  decodeFrom fun k => memRead s.mem (s.pc.toNat + k)

/-- The fault a failed fetch raises (R71 to R73, 60_exceptions.md R162, R164, R167). -/
def fetchFault (r : DecodeReject Cause) (s : State) : State :=
  match r with
  | .opcodeUnread c => raise none c s
  | .unsupported op => raise (some op) ⟨.unsupportedOperation, op.toNat⟩ s
  | .operandUnread op c => raise (some op) c s

/-- Sets the cells from `addr` on to the given bytes; a byte that would lie above 255 has no cell and is dropped. Used to place an
instruction at the pc, by nothing in a step. -/
def placeBytes (addr : Nat) : List Byte → Memory → Memory
  | [], m => m
  | b :: bs, m =>
    match memWrite m addr b.toNat with
    | .ok m' => placeBytes (addr + 1) bs m'
    | .error _ => m

/-- The state with the given bytes placed at the pc and the engine running, so that the next step fetches them. -/
def placeAtPc (bs : List Byte) (s : State) : State :=
  { s with mem := placeBytes s.pc.toNat bs s.mem, run := .running }

end Sys2Proof.Machine
end

