-- ==== Sys2Proof/Machine/Flags.lean ====
section
/-! DEFINITION. The machine's only flag, the equal flag `E` (10_state.md R16 to R18). No other flag exists (00_scope.md R4). -/

namespace Sys2Proof.Machine

/-- Reads `E`. Only JEQ and JNE look at it (R17). -/
def readE (s : State) : Bool := s.e

/-- `E <- f`. CMP alone writes it, and only `true` (R17): reset is the only event that clears it. -/
def writeE (f : Bool) (s : State) : State := { s with e := f }

/-- The new value CMP gives the flag: `some true` for equal operands, none for unequal ones, which leave `E` as it was
(45_compare.md R150; R18). -/
def compareFlag (a b : Byte) : Option Bool := if a = b then some true else none

end Sys2Proof.Machine
end

