-- ==== Sys2Proof/Machine/Operands.lean ====
section
/-! DEFINITION. The operand forms: validating the operand bytes of each format before the instruction has any effect
(30_encoding.md R54, R55, R66; 40_execution_cycle.md R74). -/

namespace Sys2Proof.Machine

/-- `RegIdx(b)` (R54): the whole byte is the register's number; a byte above 7 raises RegisterIndexOutOfRange. -/
def regIdx (b : Byte) : Except Cause RegId :=
  if h : b.toNat < Config.numRegs then .ok ⟨b.toNat, h⟩ else .error ⟨.registerIndexOutOfRange, b.toNat⟩

/-- Format F1: one register. -/
def operandsF1 (ra : Byte) : Except Cause RegId := regIdx ra

/-- Format F2R: two registers, `ra` validated first. -/
def operandsF2R (ra rb : Byte) : Except Cause (RegId × RegId) :=
  match regIdx ra with
  | .error c => .error c
  | .ok a =>
    match regIdx rb with
    | .error c => .error c
    | .ok b => .ok (a, b)

/-- Format F2I: a register and the immediate byte, used as it is and never validated (R55, R66). -/
def operandsF2I (ra imm : Byte) : Except Cause (RegId × Byte) :=
  match regIdx ra with
  | .error c => .error c
  | .ok a => .ok (a, imm)

end Sys2Proof.Machine
end

