-- ==== Sys2Proof/Machine/Alu.lean ====
section
/-! DEFINITION. The ALU as a pure function of the operation, the operand values and `E` (40_execution_cycle.md R83, R84), and the engine's use
of it: validate the operand bytes, read the sources, compute, write the ONE result, advance (R74 to R77). Arithmetic is computed on exact
integers and narrowed at the end (42_arithmetic.md R105). -/

namespace Sys2Proof.Machine

/-- The ALU's result: at most one thing to write (R84). -/
inductive AluResult where
  /-- to be written to `x[ra]` -/
  | regValue (v : Byte)
  /-- to be written to the pc -/
  | newPc (t : Byte)
  /-- to be written to `E` -/
  | newFlag (f : Bool)
  /-- nothing to write -/
  | noChange
  /-- `Error(DivisionByZero)` -/
  | divisionByZero
  deriving DecidableEq, Repr

/-- R90: the immediate as it is. -/
def aluLdi (b : Byte) : AluResult := .regValue b

/-- R100: `(a + b) mod 256`. -/
def aluAdd (a b : Byte) : AluResult := .regValue (trunc8 ((a.toNat : Int) + (b.toNat : Int)))

/-- R101: `(a - b) mod 256`. -/
def aluSub (a b : Byte) : AluResult := .regValue (trunc8 ((a.toNat : Int) - (b.toNat : Int)))

/-- R102: the low 8 bits of the product. -/
def aluMul (a b : Byte) : AluResult := .regValue (trunc8 ((a.toNat : Int) * (b.toNat : Int)))

/-- R103, R106: unsigned quotient, an error for a zero divisor. -/
def aluDiv (a b : Byte) : AluResult :=
  if b.toNat = 0 then .divisionByZero else .regValue (trunc8 (a.toNat / b.toNat : Nat))

/-- R104, R106: unsigned remainder, an error for a zero divisor. -/
def aluMod (a b : Byte) : AluResult :=
  if b.toNat = 0 then .divisionByZero else .regValue (trunc8 (a.toNat % b.toNat : Nat))

/-- R120. -/
def aluAnd (a b : Byte) : AluResult := .regValue (a &&& b)

/-- R121. -/
def aluOr (a b : Byte) : AluResult := .regValue (a ||| b)

/-- R122. -/
def aluXor (a b : Byte) : AluResult := .regValue (a ^^^ b)

/-- R123: every bit inverted. -/
def aluNot (a : Byte) : AluResult := .regValue (~~~a)

/-- R124: the whole of `s` is the amount, 8 and more give 0. -/
def aluShl (a s : Byte) : AluResult :=
  .regValue (if 8 ≤ s.toNat then 0 else trunc8 (a.toNat * 2 ^ s.toNat : Nat))

/-- R125: logical; the whole of `s` is the amount, 8 and more give 0. -/
def aluShr (a s : Byte) : AluResult :=
  .regValue (if 8 ≤ s.toNat then 0 else trunc8 (a.toNat / 2 ^ s.toNat : Nat))

/-- R150: sets `E` for equal operands, else changes nothing. -/
def aluCmp (a b : Byte) : AluResult :=
  match compareFlag a b with
  | some f => .newFlag f
  | none => .noChange

/-- R140. -/
def aluJmp (a : Byte) : AluResult := .newPc a

/-- R141. -/
def aluJeq (a : Byte) (e : Bool) : AluResult := if e then .newPc a else .noChange

/-- R142. -/
def aluJne (a : Byte) (e : Bool) : AluResult := if e then .noChange else .newPc a

/-- `ALU(mnemonic, a, b, e)` (R84): `a = x[ra]`, `b = x[rb]` or the immediate, `e = E`, all read before the call. -/
def alu (f : AluOp) (a b : Byte) (e : Bool) : AluResult :=
  match f with
  | .ldi => aluLdi b
  | .add => aluAdd a b
  | .sub => aluSub a b
  | .mul => aluMul a b
  | .div => aluDiv a b
  | .mod => aluMod a b
  | .and => aluAnd a b
  | .or => aluOr a b
  | .xor => aluXor a b
  | .not => aluNot a
  | .shl => aluShl a b
  | .shr => aluShr a b
  | .jmp => aluJmp a
  | .jeq => aluJeq a e
  | .jne => aluJne a e
  | .cmp => aluCmp a b

/-- What the engine does with the ALU's result (R75 to R77, R84): it writes the one thing and, unless the pc was set by it, advances past the
`n` operand bytes; on an error it raises DivisionByZero with the index `rb` (60_exceptions.md R160) and writes nothing. -/
def retire (f : AluOp) (n : Nat) (ra : RegId) (rb : Nat) (r : AluResult) (s : State) : State :=
  match r with
  | .regValue v => advance (.alu f) n (writeReg ra v s)
  | .newPc t => writePc t s
  | .newFlag b => advance (.alu f) n (writeE b s)
  | .noChange => advance (.alu f) n s
  | .divisionByZero => raise (some (opcodeByte (.alu f))) ⟨.divisionByZero, rb⟩ s

/-- An ALU operation of format F2R: `x[ra]` and `x[rb]`. -/
def runF2R (f : AluOp) (ra rb : Byte) (s : State) : State :=
  match operandsF2R ra rb with
  | .error c => raise (some (opcodeByte (.alu f))) c s
  | .ok (a, b) => retire f 2 a b.val (alu f (readReg a s) (readReg b s) (readE s)) s

/-- An ALU operation of format F1: `x[ra]` alone; the ALU's second operand is not used by any of them. -/
def runF1 (f : AluOp) (ra : Byte) (s : State) : State :=
  match operandsF1 ra with
  | .error c => raise (some (opcodeByte (.alu f))) c s
  | .ok a => retire f 1 a 0 (alu f (readReg a s) 0 (readE s)) s

/-- An ALU operation of format F2I: the immediate is the ALU's second operand. -/
def runF2I (f : AluOp) (ra imm : Byte) (s : State) : State :=
  match operandsF2I ra imm with
  | .error c => raise (some (opcodeByte (.alu f))) c s
  | .ok (a, v) => retire f 2 a 0 (alu f (readReg a s) v (readE s)) s

end Sys2Proof.Machine
end

