-- ==== Sys2Proof/Machine/Arithmetic.lean ====
section
/-! DEFINITION. The arithmetic instructions ADD, SUB, MUL, DIV and MOD (42_arithmetic.md). -/

namespace Sys2Proof.Machine

/-- ADD (R100). -/
def execAdd (ra rb : Byte) (s : State) : Outcome := .next (runF2R .add ra rb s)

/-- SUB (R101). -/
def execSub (ra rb : Byte) (s : State) : Outcome := .next (runF2R .sub ra rb s)

/-- MUL (R102). -/
def execMul (ra rb : Byte) (s : State) : Outcome := .next (runF2R .mul ra rb s)

/-- DIV (R103): raises DivisionByZero for a zero divisor, before anything is written. -/
def execDiv (ra rb : Byte) (s : State) : Outcome := .next (runF2R .div ra rb s)

/-- MOD (R104): raises DivisionByZero for a zero divisor, before anything is written. -/
def execMod (ra rb : Byte) (s : State) : Outcome := .next (runF2R .mod ra rb s)

end Sys2Proof.Machine
end

