-- ==== Sys2Proof/Machine/Bitwise.lean ====
section
/-! DEFINITION. The bitwise instructions AND, OR, XOR, NOT, SHL and SHR (43_bitwise.md). -/

namespace Sys2Proof.Machine

/-- AND (R120). -/
def execAnd (ra rb : Byte) (s : State) : Outcome := .next (runF2R .and ra rb s)

/-- OR (R121). -/
def execOr (ra rb : Byte) (s : State) : Outcome := .next (runF2R .or ra rb s)

/-- XOR (R122). -/
def execXor (ra rb : Byte) (s : State) : Outcome := .next (runF2R .xor ra rb s)

/-- NOT (R123). -/
def execNot (ra : Byte) (s : State) : Outcome := .next (runF1 .not ra s)

/-- SHL (R124). -/
def execShl (ra rb : Byte) (s : State) : Outcome := .next (runF2R .shl ra rb s)

/-- SHR (R125). -/
def execShr (ra rb : Byte) (s : State) : Outcome := .next (runF2R .shr ra rb s)

end Sys2Proof.Machine
end

