-- ==== Sys2Proof/Machine/Compare.lean ====
section
/-! DEFINITION. The compare instruction CMP (45_compare.md). -/

namespace Sys2Proof.Machine

/-- CMP (R150, R151): sets `E` for equal operands and never clears it. -/
def execCmp (ra rb : Byte) (s : State) : Outcome := .next (runF2R .cmp ra rb s)

end Sys2Proof.Machine
end

