-- ==== Sys2Proof/Machine/ControlFlow.lean ====
section
/-! DEFINITION. The control-flow instructions JMP, JEQ and JNE (44_control_flow.md): register-indirect, absolute targets (R143). -/

namespace Sys2Proof.Machine

/-- JMP (R140). -/
def execJmp (ra : Byte) (s : State) : Outcome := .next (runF1 .jmp ra s)

/-- JEQ (R141). -/
def execJeq (ra : Byte) (s : State) : Outcome := .next (runF1 .jeq ra s)

/-- JNE (R142). -/
def execJne (ra : Byte) (s : State) : Outcome := .next (runF1 .jne ra s)

end Sys2Proof.Machine
end

