-- ==== Sys2Proof/Machine/DataMove.lean ====
section
/-! DEFINITION. The data-move instructions LDI and PRN (41_data_move.md). -/

namespace Sys2Proof.Machine

/-- LDI (R90): `x[ra] <- imm`, then `advance(2)`. -/
def execLdi (ra imm : Byte) (s : State) : Outcome := .next (runF2I .ldi ra imm s)

/-- PRN (R91): `emit(x[ra])`, then `advance(1)`. Not through the ALU: dispatch sends it to the output port (R85). -/
def execPrn (ra : Byte) (s : State) : Outcome :=
  match operandsF1 ra with
  | .error c => .next (raise (some (opcodeByte .prn)) c s)
  | .ok a => .next (advance .prn 1 (emit (readReg a s) s))

end Sys2Proof.Machine
end

