-- ==== Sys2Proof/Machine/Halt.lean ====
section
/-! DEFINITION. The halt instruction HLT (46_halt.md). -/

namespace Sys2Proof.Machine

/-- HLT (R155): `run <- Halted`; the pc keeps the address of the HLT byte, nothing else changes. -/
def execHlt (s : State) : Outcome := .next (enterHalted s)

end Sys2Proof.Machine
end

