-- ==== Sys2Proof/Machine/Step.lean ====
section
/-! DEFINITION. One step of the engine (40_execution_cycle.md R70, R79), and how the host places an instruction where the next step
fetches it. -/

namespace Sys2Proof.Machine

/-- One step (R79): fetch, decode and operand fetch, then the instruction's own effect. It is total on `Running` states and its answer there is
always a next state (a fault of the machine is the state `Faulted`). In `Halted` and `Faulted` there is no step (R70). -/
def step (s : State) : Host.Outcome State Fault Refusal :=
  match s.run with
  | .halted => .fault .engineHalted
  | .faulted => .fault .engineFaulted
  | .running =>
    match fetch s with
    | .error r => .next (fetchFault r s)
    | .ok i => exec i s

/-- The state with a table word's bytes stored at the pc and the engine running (notes/assumptions/2.md). -/
def State.withFetchWord (s : State) (nbits w : Nat) : State := placeAtPc (tableBytes nbits w) s

end Sys2Proof.Machine
end

