-- ==== Sys2Proof/Machine/Session.lean ====
section
/-! DEFINITION. The host interface (70_reset_and_hazards.md R190 to R201): the moves that exist between CORE and its host, when each is
allowed, and what the host may read. A run is prepared by reset, load and start, in this order (R193); during it the host has no move
but reset (R197, 20_memory.md R44). The position in that order is not core state, so it stands beside `State`. -/

namespace Sys2Proof.Machine

/-- Where a session stands in the order of R193. -/
inductive Phase where
  /-- after reset, before the load -/
  | fresh
  /-- the whole program has been written, the engine not started -/
  | loaded
  /-- the load failed (R194, 60_exceptions.md R173): the core never starts, only reset is left -/
  | loadFailed
  /-- the engine has been started -/
  | started
  deriving DecidableEq, Repr

/-- A core with its place in the host's protocol. -/
structure Session where
  phase : Phase
  core : State
  deriving DecidableEq, Repr

/-- The moves there are. There is no memory or register write, stop, pause or single-step during a run (R197). `step` is the engine's. -/
inductive Move where
  | reset
  /-- the program, one value per memory cell from address 0 on (R194) -/
  | load (program : List Nat)
  | start
  | step
  deriving DecidableEq, Repr

/-- Why a move does not exist in a session; nothing changes. -/
inductive Rejection where
  /-- load other than once after reset and before start (R193, R197) -/
  | loadNotAllowed
  /-- start without a completed load (R193, R195) -/
  | startNotAllowed
  /-- the engine takes no step before start (R195) -/
  | notStarted
  /-- `Halted` and `Faulted` have no step (40_execution_cycle.md R70) -/
  | noStep
  deriving DecidableEq, Repr

/-- A session right after reset. Power-on and any later reset are the same (R191). -/
def Session.fresh : Session := ⟨.fresh, State.reset⟩

/-- The host's load (R194): MemWrite of each value at the next address; it ends at the first write that fails, with that write's fault. -/
def hostLoad (addr : Nat) : List Nat → Memory → Memory × Option Cause
  | [], m => (m, none)
  | v :: vs, m =>
    match memWrite m addr v with
    | .ok m' => hostLoad (addr + 1) vs m'
    | .error c => (m, some c)

/-- Loading in a session just reset: started only if every write succeeded (R194). -/
def loadProgram (program : List Nat) (s : State) : Session :=
  match hostLoad 0 program s.mem with
  | (m, none) => ⟨.loaded, { s with mem := m }⟩
  | (m, some _) => ⟨.loadFailed, { s with mem := m }⟩

/-- One move of the host or the engine (R197). -/
def Session.move (m : Move) (z : Session) : Except Rejection Session :=
  match m with
  | .reset => .ok Session.fresh
  | .load program =>
    match z.phase with
    | .fresh => .ok (loadProgram program z.core)
    | .loaded => .error .loadNotAllowed
    | .loadFailed => .error .loadNotAllowed
    | .started => .error .loadNotAllowed
  | .start =>
    match z.phase with
    | .loaded => .ok ⟨.started, z.core⟩
    | .fresh => .error .startNotAllowed
    | .loadFailed => .error .startNotAllowed
    | .started => .error .startNotAllowed
  | .step =>
    match z.phase with
    | .started =>
      match Sys2Proof.Machine.step z.core with
      | .next t => .ok ⟨.started, t⟩
      | .fault _ => .error .noStep
      | .refused _ => .error .noStep
    | .fresh => .error .notStarted
    | .loaded => .error .notStarted
    | .loadFailed => .error .notStarted

/-- What the host may read after the end of a run: the whole state (R200), memory with its unset cells included. -/
structure Observation where
  run : RunState
  fault : Option FaultRecord
  out : List Byte
  x : Vector Byte Config.numRegs
  pc : Byte
  e : Bool
  mem : Memory
  deriving DecidableEq, Repr

/-- A state as the host reads it: every piece of it (R200). -/
def observationOf (s : State) : Observation where
  run := s.run
  fault := s.fault
  out := s.out
  x := s.x
  pc := s.pc
  e := s.e
  mem := s.mem

/-- Reading the core: after the run has ended, never during it (R197, R200); it changes nothing. -/
def Session.observe (z : Session) : Option Observation :=
  match z.core.run with
  | .running => none
  | .halted => some (observationOf z.core)
  | .faulted => some (observationOf z.core)

/-- The executor (40_execution_cycle.md R86): at most `fuel` steps. Where the engine has no step it returns the same state (95_test_vectors.md V-HLT);
reaching the bound says only that the run had not ended yet. The bound is the executor's, not the machine's. -/
def runFuel : Nat → State → State
  | 0, s => s
  | fuel + 1, s =>
    match Sys2Proof.Machine.step s with
    | .next t => runFuel fuel t
    | .fault _ => s
    | .refused _ => s

end Sys2Proof.Machine
end

