-- ==== Sys2Proof/Safety.lean ====
section
/-! DEFINITION. What counts as the end of a run and as a success (70_reset_and_hazards.md R201), and the invariant every step keeps:
memory in canonical form, and a fault record that is there exactly in `Faulted` and fits the spec's table (10_state.md R20, 60_exceptions.md
R160, R167). -/

namespace Sys2Proof.Machine

/-- A run has ended when `run` is `Halted` or `Faulted` (R201). -/
def ended (s : State) : Bool := decide (s.run ≠ .running)

/-- A run ended successfully only when `run = Halted` (R201): a fault is never a success. -/
def succeeded (s : State) : Bool := decide (s.run = .halted)

/-- The datum of a fault record is in the range R160's table gives its kind, where `op` is the operation of the record's opcode byte, none for
an unsupported byte or no byte. -/
def infoFits (r : FaultRecord) : Bool :=
  match r.kind with
  | .addressOutOfRange => (r.opcode.bind lookupOp).isSome && decide (r.info = 256)
  | .unsupportedOperation =>
    match r.opcode with
    | some b => decide (lookupOp b = none) && decide (r.info = b.toNat)
    | none => false
  | .divisionByZero =>
    (decide (r.opcode.bind lookupOp = some (.alu .div)) || decide (r.opcode.bind lookupOp = some (.alu .mod)))
      && decide (r.info < Config.numRegs)
  | .uninitializedMemoryRead =>
    match r.opcode with
    | none => decide (r.info = r.pc.toNat)
    | some b =>
      match lookupOp b with
      | some op => decide (r.pc.toNat < r.info) && decide (r.info ≤ r.pc.toNat + operandCount op) && decide (r.info < Config.memSize)
      | none => false
  | .registerIndexOutOfRange =>
    (r.opcode.bind lookupOp).isSome && decide (Config.numRegs ≤ r.info) && decide (r.info < 256)

/-- A fault record of a state: it names the pc and the opcode byte the memory holds there, none for an unset cell (R20, R167), and its datum
fits its kind. -/
def recordFits (s : State) (r : FaultRecord) : Bool :=
  decide (r.pc = s.pc) && decide (r.opcode = lookupCell s.mem s.pc.toNat) && infoFits r

/-- The invariant of the machine (10_state.md R19, R20, R22, R25). The ranges of pc, registers and cells hold by their types. -/
def State.inv (s : State) : Bool :=
  Memory.wf s.mem &&
    match s.run, s.fault with
    | .faulted, some r => recordFits s r
    | .faulted, none => false
    | .running, f => f.isNone
    | .halted, f => f.isNone

end Sys2Proof.Machine
end

