-- ==== Sys2Proof/Certificates/Slice0/Obligations.lean ====
section
/-! DEFINITION. The statements for the provers, from the numbered rules of spec/. `Sys2Proof.Spec` holds the few words they share,
written from the rules themselves and not from the model's operations. -/

namespace Sys2Proof.Spec

open Sys2Proof.Machine

/-- The state in which a fault is recorded and nothing else has changed (60_exceptions.md R166). -/
def faulted (o : Option Byte) (k : FaultKind) (info : Nat) (s : State) : State :=
  { s with run := .faulted, fault := some ⟨k, s.pc, o, info⟩ }

/-- The end of an instruction of operation `op` with `n` operand bytes that does not set the pc, `s` being the state with its effect made (R76):
the pc moves by the length, or, past 255, stays and the run ends in AddressOutOfRange with the effect kept. -/
def advanced (op : Op) (n : Nat) (s : State) : State :=
  if s.pc.toNat + 1 + n ≤ 255 then { s with pc := BitVec.ofNat 8 (s.pc.toNat + 1 + n) }
  else faulted (some (opcodeByte op)) .addressOutOfRange (s.pc.toNat + 1 + n) s

/-- The state with one register changed. -/
def withReg (a : RegId) (v : Byte) (s : State) : State := { s with x := s.x.set a.val v }

/-- The operand byte of the register an instruction writes (10_state.md R12, column "writes"): none for PRN, CMP, the jumps and HLT. -/
def destination : Instr → Option Byte
  | .ldi ra _ => some ra
  | .add ra _ => some ra
  | .sub ra _ => some ra
  | .mul ra _ => some ra
  | .div ra _ => some ra
  | .mod ra _ => some ra
  | .and ra _ => some ra
  | .or ra _ => some ra
  | .xor ra _ => some ra
  | .not ra => some ra
  | .shl ra _ => some ra
  | .shr ra _ => some ra
  | .prn _ => none
  | .jmp _ => none
  | .jeq _ => none
  | .jne _ => none
  | .cmp _ _ => none
  | .hlt => none

/-- The arms of R79's listing on register NUMBERS and natural numbers, all operands fetched and validated. -/
def arm (o : Op) (ra rb : Nat) (imm : Byte) (s : State) : State :=
  let x (r : Nat) : Nat := (s.x.toList.getD r 0).toNat
  let put (n v : Nat) : State := advanced o n { s with x := s.x.setIfInBounds ra (BitVec.ofNat 8 v) }
  match o with
  | .alu .ldi => put 2 imm.toNat
  | .prn => advanced o 1 { s with out := s.out ++ [BitVec.ofNat 8 (x ra)] }
  | .alu .add => put 2 ((x ra + x rb) % 256)
  | .alu .sub => put 2 ((x ra + 256 - x rb) % 256)
  | .alu .mul => put 2 ((x ra * x rb) % 256)
  | .alu .div => if x rb = 0 then faulted (some (opcodeByte o)) .divisionByZero rb s else put 2 (x ra / x rb)
  | .alu .mod => if x rb = 0 then faulted (some (opcodeByte o)) .divisionByZero rb s else put 2 (x ra % x rb)
  | .alu .and => put 2 (Nat.land (x ra) (x rb))
  | .alu .or => put 2 (Nat.lor (x ra) (x rb))
  | .alu .xor => put 2 (Nat.xor (x ra) (x rb))
  | .alu .not => put 1 (255 - x ra)
  | .alu .shl => put 2 (x ra * 2 ^ x rb % 256)
  | .alu .shr => put 2 (x ra / 2 ^ x rb)
  | .alu .cmp => advanced o 2 (if x ra = x rb then { s with e := true } else s)
  | .alu .jmp => { s with pc := BitVec.ofNat 8 (x ra) }
  | .alu .jeq => if s.e = true then { s with pc := BitVec.ofNat 8 (x ra) } else advanced o 1 s
  | .alu .jne => if s.e = false then { s with pc := BitVec.ofNat 8 (x ra) } else advanced o 1 s
  | .hlt => { s with run := .halted }

/-- The first operand byte in a register position that is above 7 (R74). -/
def badIndex (f : Format) (operands : List Byte) : Option Byte :=
  match f with
  | .f0 => none
  | .f1 => (operands.take 1).find? fun b => decide (7 < b.toNat)
  | .f2i => (operands.take 1).find? fun b => decide (7 < b.toNat)
  | .f2r => operands.find? fun b => decide (7 < b.toNat)

/-- R79's listing as one function. -/
def listing (s : State) : State :=
  match memRead s.mem s.pc.toNat with
  | .error c => faulted none c.kind c.info s
  | .ok op =>
    match lookupOp op with
    | none => faulted (some op) .unsupportedOperation op.toNat s
    | some o =>
      match (List.range (operandCount o)).mapM fun k => memRead s.mem (s.pc.toNat + 1 + k) with
      | .error c => faulted (some op) c.kind c.info s
      | .ok operands =>
        match badIndex (opFormat o) operands with
        | some b => faulted (some op) .registerIndexOutOfRange b.toNat s
        | none => arm o (operands.getD 0 0).toNat (operands.getD 1 0).toNat (operands.getD 1 0) s

/-- The cell at an offset from the pc: its byte, or none where it is unset or does not exist. -/
def cellAt (s : State) (k : Nat) : Option Byte :=
  if s.pc.toNat + k ≤ 255 then lookupCell s.mem (s.pc.toNat + k) else none

/-- The operation of the opcode byte at the pc, none where the cell is unset or the byte unsupported. -/
def opAt (s : State) : Option Op := (cellAt s 0).bind lookupOp

/-- The fault of an operand byte that the operation at the pc owns and that cannot be read (R82 items 3 and 4). -/
def operandFault (s : State) (k : Nat) : Option FaultRecord :=
  if (opAt s).any (fun o => decide (k ≤ operandCount o)) then
    if 255 < s.pc.toNat + k then some ⟨.addressOutOfRange, s.pc, cellAt s 0, s.pc.toNat + k⟩
    else if cellAt s k = none then some ⟨.uninitializedMemoryRead, s.pc, cellAt s 0, s.pc.toNat + k⟩
    else none
  else none

/-- The fault of an operand byte above 7 in a register position (R82 items 5 and 6): the first operand of every format that has one,
the second of F2R. -/
def indexFault (s : State) (k : Nat) : Option FaultRecord :=
  match opAt s, cellAt s k with
  | some o, some b =>
    if (k ≤ operandCount o ∧ (k = 1 ∨ opFormat o = .f2r)) ∧ 7 < b.toNat then
      some ⟨.registerIndexOutOfRange, s.pc, cellAt s 0, b.toNat⟩
    else none
  | _, _ => none

/-- The fault of a zero divisor (R82 item 7). -/
def divisorFault (s : State) : Option FaultRecord :=
  match cellAt s 2 with
  | some b =>
    if (opAt s = some (.alu .div) ∨ opAt s = some (.alu .mod)) ∧ s.x.toList[b.toNat]? = some 0 then
      some ⟨.divisionByZero, s.pc, cellAt s 0, b.toNat⟩
    else none
  | none => none

/-- Items 1 to 7 of R82's list, in its order: the fault of each, where its own condition holds. -/
def faultList (s : State) : List (Option FaultRecord) :=
  [ if cellAt s 0 = none then some ⟨.uninitializedMemoryRead, s.pc, none, s.pc.toNat⟩ else none,
    match cellAt s 0 with
      | some b => if lookupOp b = none then some ⟨.unsupportedOperation, s.pc, some b, b.toNat⟩ else none
      | none => none,
    operandFault s 1,
    operandFault s 2,
    indexFault s 1,
    indexFault s 2,
    divisorFault s ]

end Sys2Proof.Spec

open Sys2Proof Sys2Proof.Machine Sys2Proof.Spec

/-! ### Reset and the host (10_state.md section 9, 70_reset_and_hazards.md) -/

/-- 10_state.md section 9: every piece of state at its reset value. That `run` is `Running` before the host starts the engine is the reading of
notes/assumptions/4.md. -/
def Obligations.ResetValues : Prop :=
  (∀ r : RegId, readReg r State.reset = 0) ∧ State.reset.pc = 0 ∧ State.reset.e = false ∧ State.reset.run = .running ∧
    State.reset.fault = none ∧ State.reset.out = [] ∧
    ∀ a : Nat, a < 256 → memRead State.reset.mem a = .error ⟨.uninitializedMemoryRead, a⟩

/-- 70_reset_and_hazards.md section 1: reset is allowed at any time, gives the reset state whatever was before, and is the only move that clears
`E`, unsets a cell, or leaves `Halted` or `Faulted`. The moves are notes/assumptions/9.md's. -/
def Obligations.OnlyResetClears : Prop :=
  (∀ z : Session, z.move .reset = .ok ⟨.fresh, State.reset⟩) ∧
    ∀ (m : Move) (z z' : Session), m ≠ .reset → z.move m = .ok z' →
      (z.core.e = true → z'.core.e = true) ∧
      (∀ a v, memRead z.core.mem a = .ok v → ∃ w, memRead z'.core.mem a = .ok w) ∧
      (z.core.run ≠ .running → z'.core.run = z.core.run ∧ z'.core.fault = z.core.fault)

/-- 70_reset_and_hazards.md section 2, load: a program of at most 256 bytes fills cells 0 to n-1 and leaves the others unset, with everything else as
reset left it; the core can then be started, and starting changes nothing in it. A longer program fails at the host and the core cannot be started.
The phases are notes/assumptions/9.md's. -/
def Obligations.LoadFillsCells : Prop :=
  (∀ p : List Nat, p.length ≤ 256 →
      ∃ m : Memory, Session.fresh.move (.load p) = .ok ⟨.loaded, { State.reset with mem := m }⟩ ∧
        Session.move .start ⟨.loaded, { State.reset with mem := m }⟩ = .ok ⟨.started, { State.reset with mem := m }⟩ ∧
        ∀ a : Nat, a < 256 →
          memRead m a = match p[a]? with
            | some v => .ok (BitVec.ofNat 8 v)
            | none => .error ⟨.uninitializedMemoryRead, a⟩) ∧
    ∀ p : List Nat, 256 < p.length →
      ∃ z : Session, Session.fresh.move (.load p) = .ok z ∧ z.move .start = .error .startNotAllowed ∧
        z.move .step = .error .notStarted

/-- 70_reset_and_hazards.md section 3: load only right after reset, start only after a load, a step only after start, and the host reads the core only
after the end of a run; a started session takes no move of the host but reset. The rejections are notes/assumptions/9.md's. -/
def Obligations.HostMovesInOrder : Prop :=
  ∀ (z z' : Session),
    ((∃ p, z.move (.load p) = .ok z') → z.phase = .fresh ∧ z'.core = { z.core with mem := z'.core.mem }) ∧
    (z.move .start = .ok z' → z.phase = .loaded ∧ z'.core = z.core) ∧
    (z.move .step = .ok z' ↔ z.phase = .started ∧ z'.phase = .started ∧ step z.core = .next z'.core) ∧
    ((z.observe).isSome = true ↔ (z.core.run = .halted ∨ z.core.run = .faulted))

/-- 95_test_vectors.md V-RST, 20_memory.md R30: a step right after reset with no program loaded. -/
def Obligations.StepOfEmptyMemory : Prop :=
  step State.reset = .next (faulted none .uninitializedMemoryRead 0 State.reset)

/-! ### Memory (20_memory.md) -/

/-- R30, for a memory in canonical form: the range check first, then an unset cell, then the byte. -/
def Obligations.MemReadAnswers : Prop :=
  ∀ (m : Memory) (a : Nat), Memory.wf m = true →
    (255 < a → memRead m a = .error ⟨.addressOutOfRange, a⟩) ∧
    (a ≤ 255 → (∀ v : Byte, (a, v) ∉ m) → memRead m a = .error ⟨.uninitializedMemoryRead, a⟩) ∧
    (∀ v : Byte, (a, v) ∈ m → memRead m a = .ok v)

/-- R31: a write sets exactly its own cell, with the value truncated to 8 bits, and refuses an address above 255. -/
def Obligations.MemWriteSetsOneCell : Prop :=
  ∀ (m : Memory) (a v : Nat),
    (255 < a → memWrite m a v = .error ⟨.addressOutOfRange, a⟩) ∧
    (a ≤ 255 → ∃ m', memWrite m a v = .ok m' ∧ memRead m' a = .ok (BitVec.ofNat 8 v) ∧
      ∀ b : Nat, b ≠ a → memRead m' b = memRead m b)

/-- 20_memory.md sections 1 and 7: no instruction and no step changes memory; every address reads as before. -/
def Obligations.MemoryNeverWritten : Prop :=
  (∀ (i : Instr) (s t : State), exec i s = .next t → t.mem = s.mem ∧ ∀ a, memRead t.mem a = memRead s.mem a) ∧
    ∀ s t : State, step s = .next t → t.mem = s.mem ∧ ∀ a, memRead t.mem a = memRead s.mem a

/-! ### Encoding (30_encoding.md) -/

/-- 30_encoding.md sections 3 and 5: the 18 opcode bytes and the operand bytes of each format, whatever the operand bytes hold, and 0x00, which is no
instruction. The byte values are the spec's general knowledge (92_eei_decisions.md D1; notes/assumptions/1.md). -/
def Obligations.OpcodeBytesDecode : Prop :=
  ∀ (a b : Byte) (rest : List Byte),
    decode (0x82 :: a :: b :: rest) = .ok (.ldi a b, rest) ∧ decode (0x47 :: a :: rest) = .ok (.prn a, rest) ∧
    decode (0xA0 :: a :: b :: rest) = .ok (.add a b, rest) ∧ decode (0xA1 :: a :: b :: rest) = .ok (.sub a b, rest) ∧
    decode (0xA2 :: a :: b :: rest) = .ok (.mul a b, rest) ∧ decode (0xA3 :: a :: b :: rest) = .ok (.div a b, rest) ∧
    decode (0xA4 :: a :: b :: rest) = .ok (.mod a b, rest) ∧ decode (0xA8 :: a :: b :: rest) = .ok (.and a b, rest) ∧
    decode (0xAA :: a :: b :: rest) = .ok (.or a b, rest) ∧ decode (0xAB :: a :: b :: rest) = .ok (.xor a b, rest) ∧
    decode (0x69 :: a :: rest) = .ok (.not a, rest) ∧ decode (0xAC :: a :: b :: rest) = .ok (.shl a b, rest) ∧
    decode (0xAD :: a :: b :: rest) = .ok (.shr a b, rest) ∧ decode (0x54 :: a :: rest) = .ok (.jmp a, rest) ∧
    decode (0x55 :: a :: rest) = .ok (.jeq a, rest) ∧ decode (0x56 :: a :: rest) = .ok (.jne a, rest) ∧
    decode (0xA7 :: a :: b :: rest) = .ok (.cmp a b, rest) ∧ decode (0x01 :: rest) = .ok (.hlt, rest) ∧
    decode (0x00 :: rest) = .error (.unsupported 0x00)

/-- 30_encoding.md sections 1 to 4: the decoder reads an instruction and a rest from a list of bytes exactly when the list is that instruction's bytes
followed by the rest: no bit of an encoding is dropped, no two encodings read as one instruction. -/
def Obligations.DecodeInvertsEncode : Prop :=
  ∀ (bs rest : List Byte) (i : Instr), decode bs = .ok (i, rest) ↔ bs = encode i ++ rest

/-- R60, R162: a byte that starts no instruction's encoding is refused by the decoder by its name and, fetched as an opcode, faults with the byte in
both fields and nothing else changed, whatever the other cells hold; there are 238 of them, and 0x00 is one (by the opcode map,
notes/assumptions/1.md). -/
def Obligations.UnsupportedOpcodeFaults : Prop :=
  (∀ (b : Byte) (rest : List Byte), (∀ i : Instr, (encode i).head? ≠ some b) → decode (b :: rest) = .error (.unsupported b)) ∧
    (∀ (s : State) (b : Byte), s.run = .running → memRead s.mem s.pc.toNat = .ok b → (∀ i : Instr, (encode i).head? ≠ some b) →
      step s = .next (faulted (some b) .unsupportedOperation b.toNat s)) ∧
    ∃ bad : List Byte, bad.length = 238 ∧ bad.Nodup ∧ 0x00 ∈ bad ∧ ∀ b : Byte, b ∈ bad ↔ ∀ i : Instr, (encode i).head? ≠ some b

/-- R54, R165: the first operand byte in a register position that is above 7 faults before any effect, for every instruction that has one, the
conditional jumps included whether or not they would be taken. -/
def Obligations.RegisterIndexFaults : Prop :=
  ∀ (i : Instr) (s : State) (b : Byte), (i.regBytes.find? fun c => decide (7 < c.toNat)) = some b →
    exec i s = .next (faulted (some (opcodeByte (instrOp i))) .registerIndexOutOfRange b.toNat s)

/-! ### The step (40_execution_cycle.md) -/

/-- 40_execution_cycle.md section 3: when the bytes at the pc of a running engine decode to an instruction, the step is that instruction's
execution and nothing else. -/
def Obligations.StepRunsDecoded : Prop :=
  ∀ (s : State) (bs : List Byte) (i : Instr), s.run = .running → decode bs = .ok (i, []) →
    (∀ (k : Nat) (h : k < bs.length), memRead s.mem (s.pc.toNat + k) = .ok bs[k]) → step s = exec i s

/-- R79: the whole step is the listing, on every running state. -/
def Obligations.StepIsListing : Prop :=
  ∀ s : State, s.run = .running → step s = .next (listing s)

/-- R82: of the faults whose conditions hold in a running state, the first in the order of the list is raised and alone recorded, with no other effect;
where none of the seven holds, the step is the instruction's, and if it faults, then in its advance, after the effect it makes where there is room
(here: at address 0). -/
def Obligations.FirstFaultWins : Prop :=
  ∀ s : State, s.run = .running →
    match (faultList s).findSome? id with
    | some r => step s = .next { s with run := .faulted, fault := some r }
    | none => ∃ (i : Instr) (t : State), fetch s = .ok i ∧ step s = .next t ∧
        (t.run = .faulted →
          ∃ u, exec i { s with pc := 0 } = .next u ∧ u.run = .running ∧
            t = { u with
              pc := s.pc, run := .faulted,
              fault := some ⟨.addressOutOfRange, s.pc, cellAt s 0, s.pc.toNat + instrLength i⟩ })

/-- R70: a step is taken if and only if the engine is running; it is one instruction or one fault. -/
def Obligations.StepIffRunning : Prop :=
  ∀ s : State, ((∃ t, step s = .next t) ↔ s.run = .running) ∧
    (s.run = .running → (∃ i, fetch s = .ok i ∧ step s = exec i s) ∨
      ∃ r : FaultRecord, r.pc = s.pc ∧ step s = .next { s with run := .faulted, fault := some r })

/-- 40_execution_cycle.md sections 2 and 3: every instruction, legal or not, answers a next state in every state. -/
def Obligations.ExecTotal : Prop := ∀ (i : Instr) (s : State), ∃ t, exec i s = .next t

/-- 40_execution_cycle.md section 2, 10_state.md section 2: where the pc goes. It stays (a fault, HLT), moves forward by the length without wrapping,
or takes the register value of a jump that is taken. -/
def Obligations.PcMoves : Prop :=
  ∀ (i : Instr) (s t : State), exec i s = .next t →
    (t.run = .faulted ∧ t.pc = s.pc) ∨ (i = .hlt ∧ t.pc = s.pc) ∨ t.pc.toNat = s.pc.toNat + instrLength i ∨
      ∃ a : RegId, (i = .jmp (regByte a) ∨ (i = .jeq (regByte a) ∧ s.e = true) ∨ (i = .jne (regByte a) ∧ s.e = false)) ∧
        t.pc = readReg a s

/-! ### Data move (41_data_move.md)

The result statements from here on give, beside the effect, the encoding their rule writes out. The opcode byte in it is the spec's own general
knowledge (notes/assumptions/1.md); the effect does not rest on it. -/

/-- R90: LDI, for every register and every immediate. -/
def Obligations.LdiResult : Prop :=
  (∀ ra imm, encode (.ldi ra imm) = [0b10000010, ra, imm]) ∧
    ∀ (s : State) (a : RegId) (imm : Byte),
      exec (.ldi (regByte a) imm) s = .next (advanced (.alu .ldi) 2 (withReg a imm s))

/-- R91: PRN. -/
def Obligations.PrnResult : Prop :=
  (∀ ra, encode (.prn ra) = [0b01000111, ra]) ∧
    ∀ (s : State) (a : RegId),
      exec (.prn (regByte a)) s = .next (advanced .prn 1 { s with out := s.out ++ [readReg a s] })

/-! ### Arithmetic (42_arithmetic.md) -/

/-- R100: ADD. -/
def Obligations.AddResult : Prop :=
  (∀ ra rb, encode (.add ra rb) = [0b10100000, ra, rb]) ∧
    ∀ (s : State) (a b : RegId),
      exec (.add (regByte a) (regByte b)) s =
        .next (advanced (.alu .add) 2 (withReg a (BitVec.ofNat 8 (((readReg a s).toNat + (readReg b s).toNat) % 256)) s))

/-- R101: SUB; a difference below 0 wraps by 256. -/
def Obligations.SubResult : Prop :=
  (∀ ra rb, encode (.sub ra rb) = [0b10100001, ra, rb]) ∧
    ∀ (s : State) (a b : RegId),
      exec (.sub (regByte a) (regByte b)) s =
        .next (advanced (.alu .sub) 2
          (withReg a
            (if (readReg b s).toNat ≤ (readReg a s).toNat then BitVec.ofNat 8 ((readReg a s).toNat - (readReg b s).toNat)
              else BitVec.ofNat 8 ((readReg a s).toNat + 256 - (readReg b s).toNat)) s))

/-- R102: MUL, the low 8 bits of the product. -/
def Obligations.MulResult : Prop :=
  (∀ ra rb, encode (.mul ra rb) = [0b10100010, ra, rb]) ∧
    ∀ (s : State) (a b : RegId),
      exec (.mul (regByte a) (regByte b)) s =
        .next (advanced (.alu .mul) 2 (withReg a (BitVec.ofNat 8 ((readReg a s).toNat * (readReg b s).toNat % 256)) s))

/-- R103: DIV; a zero divisor faults with the register index and nothing written. -/
def Obligations.DivResult : Prop :=
  (∀ ra rb, encode (.div ra rb) = [0b10100011, ra, rb]) ∧
    ∀ (s : State) (a b : RegId),
      exec (.div (regByte a) (regByte b)) s =
        .next (if (readReg b s).toNat = 0 then faulted (some (opcodeByte (.alu .div))) .divisionByZero b.val s
          else advanced (.alu .div) 2 (withReg a (BitVec.ofNat 8 ((readReg a s).toNat / (readReg b s).toNat)) s))

/-- R104: MOD; a zero divisor faults with the register index and nothing written. -/
def Obligations.ModResult : Prop :=
  (∀ ra rb, encode (.mod ra rb) = [0b10100100, ra, rb]) ∧
    ∀ (s : State) (a b : RegId),
      exec (.mod (regByte a) (regByte b)) s =
        .next (if (readReg b s).toNat = 0 then faulted (some (opcodeByte (.alu .mod))) .divisionByZero b.val s
          else advanced (.alu .mod) 2 (withReg a (BitVec.ofNat 8 ((readReg a s).toNat % (readReg b s).toNat)) s))

/-- R106: for a divisor that is not 0 the quotient and remainder that DIV and MOD leave recombine to the dividend, and the remainder is below the
divisor; for a zero divisor both fault and write nothing. -/
def Obligations.DivModRecombine : Prop :=
  ∀ (s t u : State) (a b : RegId), exec (.div (regByte a) (regByte b)) s = .next t → exec (.mod (regByte a) (regByte b)) s = .next u →
    (readReg b s ≠ 0 →
      (readReg a t).toNat * (readReg b s).toNat + (readReg a u).toNat = (readReg a s).toNat ∧
        (readReg a u).toNat < (readReg b s).toNat) ∧
    (readReg b s = 0 →
      t = faulted (some (opcodeByte (.alu .div))) .divisionByZero b.val s ∧
        u = faulted (some (opcodeByte (.alu .mod))) .divisionByZero b.val s)

/-- R108: the same register as both operands. -/
def Obligations.SameRegisterTwice : Prop :=
  ∀ (s : State) (a : RegId),
    exec (.add (regByte a) (regByte a)) s = .next (advanced (.alu .add) 2 (withReg a (BitVec.ofNat 8 (2 * (readReg a s).toNat)) s)) ∧
    exec (.sub (regByte a) (regByte a)) s = .next (advanced (.alu .sub) 2 (withReg a 0 s)) ∧
    exec (.mul (regByte a) (regByte a)) s = .next (advanced (.alu .mul) 2 (withReg a (BitVec.ofNat 8 ((readReg a s).toNat ^ 2)) s)) ∧
    exec (.div (regByte a) (regByte a)) s =
      .next (if readReg a s = 0 then faulted (some (opcodeByte (.alu .div))) .divisionByZero a.val s
        else advanced (.alu .div) 2 (withReg a 1 s)) ∧
    exec (.mod (regByte a) (regByte a)) s =
      .next (if readReg a s = 0 then faulted (some (opcodeByte (.alu .mod))) .divisionByZero a.val s
        else advanced (.alu .mod) 2 (withReg a 0 s))

/-- R107: with the operand bytes exchanged ADD and MUL leave the same value in their destination; SUB, DIV and MOD do not always. -/
def Obligations.AddMulCommute : Prop :=
  (∀ (s t u : State) (a b : RegId), exec (.add (regByte a) (regByte b)) s = .next t → exec (.add (regByte b) (regByte a)) s = .next u →
      readReg a t = readReg b u) ∧
    (∀ (s t u : State) (a b : RegId), exec (.mul (regByte a) (regByte b)) s = .next t → exec (.mul (regByte b) (regByte a)) s = .next u →
      readReg a t = readReg b u) ∧
    ∃ (s : State) (a b : RegId),
      (∀ t u, exec (.sub (regByte a) (regByte b)) s = .next t → exec (.sub (regByte b) (regByte a)) s = .next u → readReg a t ≠ readReg b u) ∧
      (∀ t u, exec (.div (regByte a) (regByte b)) s = .next t → exec (.div (regByte b) (regByte a)) s = .next u → readReg a t ≠ readReg b u) ∧
      (∀ t u, exec (.mod (regByte a) (regByte b)) s = .next t → exec (.mod (regByte b) (regByte a)) s = .next u → readReg a t ≠ readReg b u)

/-! ### Bitwise (43_bitwise.md) -/

/-- R120: AND, bit by bit. -/
def Obligations.AndResult : Prop :=
  (∀ ra rb, encode (.and ra rb) = [0b10101000, ra, rb]) ∧
    ∀ (s : State) (a b : RegId),
      ∃ r : Byte, (∀ k : Fin 8, r.getLsbD k = ((readReg a s).getLsbD k && (readReg b s).getLsbD k)) ∧
        exec (.and (regByte a) (regByte b)) s = .next (advanced (.alu .and) 2 (withReg a r s))

/-- R121: OR, bit by bit. -/
def Obligations.OrResult : Prop :=
  (∀ ra rb, encode (.or ra rb) = [0b10101010, ra, rb]) ∧
    ∀ (s : State) (a b : RegId),
      ∃ r : Byte, (∀ k : Fin 8, r.getLsbD k = ((readReg a s).getLsbD k || (readReg b s).getLsbD k)) ∧
        exec (.or (regByte a) (regByte b)) s = .next (advanced (.alu .or) 2 (withReg a r s))

/-- R122: XOR, bit by bit: 1 exactly where the bits differ. -/
def Obligations.XorResult : Prop :=
  (∀ ra rb, encode (.xor ra rb) = [0b10101011, ra, rb]) ∧
    ∀ (s : State) (a b : RegId),
      ∃ r : Byte, (∀ k : Fin 8, r.getLsbD k = decide ((readReg a s).getLsbD k ≠ (readReg b s).getLsbD k)) ∧
        exec (.xor (regByte a) (regByte b)) s = .next (advanced (.alu .xor) 2 (withReg a r s))

/-- R123: NOT, every bit inverted, which is 255 minus the value. -/
def Obligations.NotResult : Prop :=
  (∀ ra, encode (.not ra) = [0b01101001, ra]) ∧
    ∀ (s : State) (a : RegId),
      ∃ r : Byte, (∀ k : Fin 8, r.getLsbD k = !(readReg a s).getLsbD k) ∧ r.toNat = 255 - (readReg a s).toNat ∧
        exec (.not (regByte a)) s = .next (advanced (.alu .not) 1 (withReg a r s))

/-- 43_bitwise.md, NOT, the document's property: two NOTs of the same register restore it, and change nothing else but the pc. -/
def Obligations.NotTwiceRestores : Prop :=
  ∀ (s : State) (a : RegId), s.pc.toNat + 4 ≤ 255 →
    ∃ t, exec (.not (regByte a)) s = .next t ∧
      exec (.not (regByte a)) t = .next { s with pc := BitVec.ofNat 8 (s.pc.toNat + 4) }

/-- R124: SHL by the whole byte of the second register. -/
def Obligations.ShlResult : Prop :=
  (∀ ra rb, encode (.shl ra rb) = [0b10101100, ra, rb]) ∧
    ∀ (s : State) (a b : RegId),
      ∃ r : Byte, r.toNat = (readReg a s).toNat * 2 ^ (readReg b s).toNat % 256 ∧
        (∀ k : Fin 8, r.getLsbD k = (decide ((readReg b s).toNat ≤ k.val) && (readReg a s).getLsbD (k.val - (readReg b s).toNat))) ∧
        exec (.shl (regByte a) (regByte b)) s = .next (advanced (.alu .shl) 2 (withReg a r s))

/-- R125: SHR by the whole byte of the second register, zeros entering at bit 7. -/
def Obligations.ShrResult : Prop :=
  (∀ ra rb, encode (.shr ra rb) = [0b10101101, ra, rb]) ∧
    ∀ (s : State) (a b : RegId),
      ∃ r : Byte, r.toNat = (readReg a s).toNat / 2 ^ (readReg b s).toNat ∧
        (∀ k : Fin 8, r.getLsbD k = (decide (k.val + (readReg b s).toNat ≤ 7) && (readReg a s).getLsbD (k.val + (readReg b s).toNat))) ∧
        exec (.shr (regByte a) (regByte b)) s = .next (advanced (.alu .shr) 2 (withReg a r s))

/-- 43_bitwise.md, Laws: SHL then SHR by the same amount n loses the top n bits, and everything for n of 8 and more. -/
def Obligations.ShiftRoundTrip : Prop :=
  ∀ (s : State) (a b : RegId), a ≠ b → s.pc.toNat + 6 ≤ 255 →
    ∃ t u, exec (.shl (regByte a) (regByte b)) s = .next t ∧ exec (.shr (regByte a) (regByte b)) t = .next u ∧
      (readReg a u).toNat =
        if (readReg b s).toNat ≤ 8 then (readReg a s).toNat % 2 ^ (8 - (readReg b s).toNat) else 0

/-! ### Control flow, compare, halt (44, 45, 46) -/

/-- R140: JMP; it cannot fault, for any target and from any address. -/
def Obligations.JmpResult : Prop :=
  (∀ ra, encode (.jmp ra) = [0b01010100, ra]) ∧
    ∀ (s : State) (a : RegId), exec (.jmp (regByte a)) s = .next { s with pc := readReg a s }

/-- R141: JEQ, taken exactly if `E` is true. -/
def Obligations.JeqResult : Prop :=
  (∀ ra, encode (.jeq ra) = [0b01010101, ra]) ∧
    ∀ (s : State) (a : RegId),
      exec (.jeq (regByte a)) s = .next (if s.e = true then { s with pc := readReg a s } else advanced (.alu .jeq) 1 s)

/-- R142: JNE, taken exactly if `E` is false. -/
def Obligations.JneResult : Prop :=
  (∀ ra, encode (.jne ra) = [0b01010110, ra]) ∧
    ∀ (s : State) (a : RegId),
      exec (.jne (regByte a)) s = .next (if s.e = false then { s with pc := readReg a s } else advanced (.alu .jne) 1 s)

/-- 40_execution_cycle.md section 7: a JMP to its own address goes on forever and changes nothing. -/
def Obligations.SelfJumpNeverEnds : Prop :=
  ∀ (s : State) (a : RegId), s.run = .running → fetch s = .ok (.jmp (regByte a)) → readReg a s = s.pc →
    ∀ k : Nat, Sys2Proof.core.run k s = .next s

/-- R150: CMP, by the truth table under R151: it sets `E` for equal values and never clears it. -/
def Obligations.CmpResult : Prop :=
  (∀ ra rb, encode (.cmp ra rb) = [0b10100111, ra, rb]) ∧
    ∀ (s : State) (a b : RegId),
      exec (.cmp (regByte a) (regByte b)) s =
        .next (advanced (.alu .cmp) 2 { s with e := s.e || decide (readReg a s = readReg b s) })

/-- R155: HLT from any state, at any address, keeps the pc and changes nothing but the run state, and the engine takes no step after it. -/
def Obligations.HltResult : Prop :=
  encode .hlt = [0b00000001] ∧
    ∀ s : State, exec .hlt s = .next { s with run := .halted } ∧ ∀ u, step { s with run := .halted } ≠ .next u

/-! ### The equal flag (10_state.md section 3) -/

/-- R18 with its consequence: once `E` is true every step keeps it, whatever a CMP compares, so every later JEQ is taken and every later JNE falls
through. -/
def Obligations.EqualFlagLatches : Prop :=
  (∀ s t : State, step s = .next t → s.e = true → t.e = true) ∧
    (∀ (s : State) (a b : RegId), readReg a s ≠ readReg b s →
      exec (.cmp (regByte a) (regByte b)) s = .next (advanced (.alu .cmp) 2 s)) ∧
    ∀ (s : State) (a : RegId), s.e = true →
      exec (.jeq (regByte a)) s = .next { s with pc := readReg a s } ∧ exec (.jne (regByte a)) s = .next (advanced (.alu .jne) 1 s)

/-- R17: `E` is written by CMP alone and only toward true, and read by JEQ and JNE alone: for every other instruction a run with another `E` differs in
`E` alone. -/
def Obligations.EqualFlagUsers : Prop :=
  (∀ (i : Instr) (s t : State), exec i s = .next t → t.e ≠ s.e → (∃ ra rb, i = .cmp ra rb) ∧ t.e = true) ∧
    (∃ (ra rb : Byte) (s t : State), exec (.cmp ra rb) s = .next t ∧ t.e ≠ s.e) ∧
    (∀ (i : Instr) (s t : State) (f : Bool), (∀ ra, i ≠ .jeq ra) → (∀ ra, i ≠ .jne ra) → exec i s = .next t →
      ∃ t', exec i { s with e := f } = .next t' ∧ { t' with e := true } = { t with e := true }) ∧
    (∃ (ra : Byte) (s t t' : State), exec (.jeq ra) { s with e := true } = .next t ∧ exec (.jeq ra) { s with e := false } = .next t' ∧
      t.pc ≠ t'.pc) ∧
    ∃ (ra : Byte) (s t t' : State), exec (.jne ra) { s with e := true } = .next t ∧ exec (.jne ra) { s with e := false } = .next t' ∧
      t.pc ≠ t'.pc

/-! ### Frames -/

/-- 10_state.md section 1 (R12's table), frame of LDI, ADD, SUB, MUL, DIV, MOD, AND, OR, XOR, NOT, SHL and SHR, legal or not: every register but the
destination, `E`, the output log and every byte of memory are unchanged, and the run state and fault record change only to `Faulted` at this pc. -/
def Obligations.RegisterWritersFrame : Prop :=
  ∀ (i : Instr) (ra : Byte) (s t : State), destination i = some ra → exec i s = .next t →
    (∀ r : RegId, regByte r ≠ ra → readReg r t = readReg r s) ∧ t.e = s.e ∧ t.out = s.out ∧
      (∀ addr, memRead t.mem addr = memRead s.mem addr) ∧
      ((t.run = s.run ∧ t.fault = s.fault) ∨ (t.run = .faulted ∧ t.pc = s.pc ∧ ∃ r, t.fault = some r ∧ r.pc = s.pc))

/-- 10_state.md section 1 (R12's table), frame of PRN, CMP, JMP, JEQ, JNE and HLT, legal or not: every register and every byte of memory are unchanged,
`E` too but by CMP, the output log too but by PRN, and the run state and fault record change only to `Faulted` at this pc or, by HLT, to `Halted`. -/
def Obligations.NonWritersFrame : Prop :=
  ∀ (i : Instr) (s t : State), destination i = none → exec i s = .next t →
    (∀ r : RegId, readReg r t = readReg r s) ∧ ((∀ ra rb, i ≠ .cmp ra rb) → t.e = s.e) ∧ ((∀ ra, i ≠ .prn ra) → t.out = s.out) ∧
      (∀ addr, memRead t.mem addr = memRead s.mem addr) ∧
      ((t.run = s.run ∧ t.fault = s.fault) ∨ (i = .hlt ∧ t.run = .halted ∧ t.fault = s.fault ∧ t.pc = s.pc) ∨
        (t.run = .faulted ∧ t.pc = s.pc ∧ ∃ r, t.fault = some r ∧ r.pc = s.pc))

/-- 10_state.md section 1 (R12): no instruction reads or writes a register it does not name in an operand byte: changing such a register before or
after the instruction is the same. -/
def Obligations.UnnamedRegistersUntouched : Prop :=
  ∀ (i : Instr) (s t : State) (r : RegId) (v : Byte), regByte r ∉ i.regBytes → exec i s = .next t →
    exec i (withReg r v s) = .next (withReg r v t)

/-- 10_state.md section 7 (R24): the output log only grows, by one byte at most, only a legal PRN extends it, with the value of its register, and no
instruction reads it. -/
def Obligations.OutputOnlyByPrn : Prop :=
  (∀ (i : Instr) (s t : State), exec i s = .next t →
      t.out = s.out ∨ ∃ a : RegId, i = .prn (regByte a) ∧ t.out = s.out ++ [readReg a s]) ∧
    (∀ (i : Instr) (s t : State) (o : List Byte), exec i s = .next t →
      ∃ t', exec i { s with out := o } = .next t' ∧ { t' with out := [] } = { t with out := [] }) ∧
    ∀ s t : State, step s = .next t → t.out = s.out ∨ ∃ v, t.out = s.out ++ [v]

/-! ### Faults (60_exceptions.md) -/

/-- R168: a fault other than that of advance leaves the state as it was but for `run` and `fault`; the advance fault keeps the effect the instruction
makes where there is room (here: at address 0) and the two are told apart by the recorded datum. -/
def Obligations.FaultsArePrecise : Prop :=
  ∀ (s t : State) (r : FaultRecord), step s = .next t → t.run = .faulted → t.fault = some r →
    (r.kind ≠ .addressOutOfRange → t = { s with run := .faulted, fault := some r }) ∧
    (r.kind = .addressOutOfRange →
      ∃ op, opAt s = some op ∧
        ((r.info < s.pc.toNat + 1 + operandCount op ∧ t = { s with run := .faulted, fault := some r }) ∨
          (r.info = s.pc.toNat + 1 + operandCount op ∧
            ∃ i u, fetch s = .ok i ∧ exec i { s with pc := 0 } = .next u ∧ u.run = .running ∧
              t = { u with pc := s.pc, run := .faulted, fault := some r })))

/-- 60_exceptions.md section 1 (R160, R161): AddressOutOfRange arises only at the addresses of its two causes, a taken jump
never being one, and its datum in a step is always 256. -/
def Obligations.AddressOutOfRangeCauses : Prop :=
  ∀ (s t : State) (r : FaultRecord), step s = .next t → t.run = .faulted → t.fault = some r → r.kind = .addressOutOfRange →
    r.info = 256 ∧
      ∃ op, opAt s = some op ∧
        ((operandCount op = 1 ∧
            (s.pc.toNat = 255 ∨
              (s.pc.toNat = 254 ∧ op ≠ .alu .jmp ∧ (op = .alu .jeq → s.e = false) ∧ (op = .alu .jne → s.e = true)))) ∨
          (operandCount op = 2 ∧ (s.pc.toNat = 255 ∨ s.pc.toNat = 254 ∨ s.pc.toNat = 253)))

/-- The invariant of the machine, kept by every step: memory in canonical form; a fault record exactly in `Faulted`, naming the pc and the opcode byte
that memory holds there (none for an unset cell), with a datum in the range of the fault's kind (10_state.md R19, R20, 60_exceptions.md R160, R167). -/
def Obligations.StepKeepsInvariant : Prop :=
  ∀ s t : State, State.inv s = true → step s = .next t → State.inv t = true

/-- The reset state meets the invariant, and so does every memory the host may load into it (70_reset_and_hazards.md R194). -/
def Obligations.LaunchMeetsInvariant : Prop :=
  State.inv State.reset = true ∧
    ∀ (p : List Nat) (z : Session), Session.fresh.move (.load p) = .ok z → State.inv z.core = true
end

