-- ==== Sys2Proof/Laws/Decode.lean ====
section
/-! SUPPORT. The opcode map as a bijection between the 18 operations and their bytes, and the operand bytes of an instruction. -/

namespace Sys2Proof

/-- Every operation is found by its own byte: the 18 bytes are pairwise distinct. -/
@[simp] theorem lookupOp_opcodeByte (op : Op) : lookupOp (opcodeByte op) = some op := by
  cases op with
  | alu f => cases f <;> rfl
  | prn => rfl
  | hlt => rfl

/-- A byte that is found is the byte of what it finds. -/
theorem opcodeByte_of_lookupOp (b : Byte) (op : Op) (h : lookupOp b = some op) : opcodeByte op = b := by
  have := List.find?_some h
  simpa using this

/-- Assembling an operation gives an instruction of that operation. -/
@[simp] theorem instrOp_assemble (op : Op) (b1 b2 : Byte) : instrOp (assemble op b1 b2) = op := by
  cases op with
  | alu f => cases f <;> rfl
  | prn => rfl
  | hlt => rfl

/-- An instruction has as many operand bytes as its operation owns. -/
theorem operandBytes_length (i : Instr) : (operandBytes i).length = operandCount (instrOp i) := by
  cases i <;> rfl

theorem operandCount_le (op : Op) : operandCount op ≤ 2 := by
  cases op with
  | alu f => cases f <;> decide
  | prn => decide
  | hlt => decide

/-- Everything the decoder can answer of a source of bytes. -/
theorem decodeFrom_cases {ε : Type} (byteAt : Nat → Except ε Byte) :
    (∃ e, byteAt 0 = .error e ∧ decodeFrom byteAt = .error (.opcodeUnread e)) ∨
    (∃ o, byteAt 0 = .ok o ∧ lookupOp o = none ∧ decodeFrom byteAt = .error (.unsupported o)) ∨
    (∃ op, byteAt 0 = .ok (opcodeByte op) ∧
      ((operandCount op = 0 ∧ decodeFrom byteAt = .ok (assemble op 0 0)) ∨
       (∃ e, 1 ≤ operandCount op ∧ byteAt 1 = .error e ∧
          decodeFrom byteAt = .error (.operandUnread (opcodeByte op) e)) ∨
       (∃ b1, operandCount op = 1 ∧ byteAt 1 = .ok b1 ∧ decodeFrom byteAt = .ok (assemble op b1 0)) ∨
       (∃ b1 e, operandCount op = 2 ∧ byteAt 1 = .ok b1 ∧ byteAt 2 = .error e ∧
          decodeFrom byteAt = .error (.operandUnread (opcodeByte op) e)) ∨
       (∃ b1 b2, operandCount op = 2 ∧ byteAt 1 = .ok b1 ∧ byteAt 2 = .ok b2 ∧
          decodeFrom byteAt = .ok (assemble op b1 b2)))) := by
  cases h0 : byteAt 0 with
  | error e => exact .inl ⟨e, rfl, by simp [decodeFrom, h0]⟩
  | ok o =>
    refine .inr ?_
    cases hl : lookupOp o with
    | none => exact .inl ⟨o, rfl, hl, by simp [decodeFrom, h0, hl]⟩
    | some op =>
      refine .inr ⟨op, by rw [opcodeByte_of_lookupOp o op hl], ?_⟩
      have ho := opcodeByte_of_lookupOp o op hl
      have hle := operandCount_le op
      rcases hc : operandCount op with _ | _ | _ | n
      · exact .inl ⟨rfl, by simp [decodeFrom, h0, hl, hc]⟩
      · refine .inr ?_
        cases h1 : byteAt 1 with
        | error e => exact .inl ⟨e, by omega, rfl, by simp [decodeFrom, h0, hl, hc, h1, ho]⟩
        | ok b1 => exact .inr (.inl ⟨b1, rfl, rfl, by simp [decodeFrom, h0, hl, hc, h1]⟩)
      · refine .inr ?_
        cases h1 : byteAt 1 with
        | error e => exact .inl ⟨e, by omega, rfl, by simp [decodeFrom, h0, hl, hc, h1, ho]⟩
        | ok b1 =>
          refine .inr (.inr ?_)
          cases h2 : byteAt 2 with
          | error e => exact .inl ⟨b1, e, rfl, rfl, rfl, by simp [decodeFrom, h0, hl, hc, h1, h2, ho]⟩
          | ok b2 => exact .inr ⟨b1, b2, rfl, rfl, rfl, by simp [decodeFrom, h0, hl, hc, h1, h2]⟩
      · omega

end Sys2Proof
end

