-- ==== Sys2Proof/Laws/Operands.lean ====
section
/-! SUPPORT. The operand forms: what each validation answers. -/

namespace Sys2Proof.Machine

theorem toNat_regByte (r : RegId) : (regByte r).toNat = r.val := by
  have := r.isLt
  simp only [Config.numRegs] at this
  simp only [regByte, BitVec.toNat_ofNat]
  omega

/-- The operand byte of a register is validated to it. -/
@[simp] theorem regIdx_regByte (r : RegId) : regIdx (regByte r) = .ok r := by
  have h := r.isLt
  simp only [regIdx, toNat_regByte, dif_pos h]

theorem regByte_inj (r q : RegId) (h : regByte r = regByte q) : r = q := by
  have := congrArg BitVec.toNat h
  rw [toNat_regByte, toNat_regByte] at this
  exact Fin.ext this

/-- A byte is either the operand byte of one register, or above 7 and faults. -/
theorem regIdx_cases (b : Byte) :
    (∃ r : RegId, b = regByte r ∧ regIdx b = .ok r) ∨
      (8 ≤ b.toNat ∧ regIdx b = .error ⟨.registerIndexOutOfRange, b.toNat⟩) := by
  by_cases h : b.toNat < Config.numRegs
  · refine .inl ⟨⟨b.toNat, h⟩, ?_, by simp only [regIdx, dif_pos h]⟩
    apply BitVec.eq_of_toNat_eq
    rw [toNat_regByte]
  · refine .inr ⟨by simpa using h, by simp only [regIdx, dif_neg h]⟩

theorem legalIndex_regByte (r : RegId) : legalIndex (regByte r) = true := by
  simp only [legalIndex, toNat_regByte, decide_eq_true_eq]
  exact r.isLt

end Sys2Proof.Machine
end

