-- ==== Sys2Proof/Laws/State.lean ====
section
/-! SUPPORT. One lemma per field per state update, and reading a register after each update. Proofs cite these and never unfold an
update. -/

namespace Sys2Proof.Machine

@[simp] theorem writeReg_x (r : RegId) (v : Byte) (s : State) : (writeReg r v s).x = s.x.set r.val v := rfl
@[simp] theorem writeReg_pc (r : RegId) (v : Byte) (s : State) : (writeReg r v s).pc = s.pc := rfl
@[simp] theorem writeReg_e (r : RegId) (v : Byte) (s : State) : (writeReg r v s).e = s.e := rfl
@[simp] theorem writeReg_run (r : RegId) (v : Byte) (s : State) : (writeReg r v s).run = s.run := rfl
@[simp] theorem writeReg_fault (r : RegId) (v : Byte) (s : State) : (writeReg r v s).fault = s.fault := rfl
@[simp] theorem writeReg_mem (r : RegId) (v : Byte) (s : State) : (writeReg r v s).mem = s.mem := rfl
@[simp] theorem writeReg_out (r : RegId) (v : Byte) (s : State) : (writeReg r v s).out = s.out := rfl

@[simp] theorem writePc_x (t : Byte) (s : State) : (writePc t s).x = s.x := rfl
@[simp] theorem writePc_pc (t : Byte) (s : State) : (writePc t s).pc = t := rfl
@[simp] theorem writePc_e (t : Byte) (s : State) : (writePc t s).e = s.e := rfl
@[simp] theorem writePc_run (t : Byte) (s : State) : (writePc t s).run = s.run := rfl
@[simp] theorem writePc_fault (t : Byte) (s : State) : (writePc t s).fault = s.fault := rfl
@[simp] theorem writePc_mem (t : Byte) (s : State) : (writePc t s).mem = s.mem := rfl
@[simp] theorem writePc_out (t : Byte) (s : State) : (writePc t s).out = s.out := rfl

@[simp] theorem enterHalted_x (s : State) : (enterHalted s).x = s.x := rfl
@[simp] theorem enterHalted_pc (s : State) : (enterHalted s).pc = s.pc := rfl
@[simp] theorem enterHalted_e (s : State) : (enterHalted s).e = s.e := rfl
@[simp] theorem enterHalted_run (s : State) : (enterHalted s).run = .halted := rfl
@[simp] theorem enterHalted_fault (s : State) : (enterHalted s).fault = s.fault := rfl
@[simp] theorem enterHalted_mem (s : State) : (enterHalted s).mem = s.mem := rfl
@[simp] theorem enterHalted_out (s : State) : (enterHalted s).out = s.out := rfl

@[simp] theorem emit_x (v : Byte) (s : State) : (emit v s).x = s.x := rfl
@[simp] theorem emit_pc (v : Byte) (s : State) : (emit v s).pc = s.pc := rfl
@[simp] theorem emit_e (v : Byte) (s : State) : (emit v s).e = s.e := rfl
@[simp] theorem emit_run (v : Byte) (s : State) : (emit v s).run = s.run := rfl
@[simp] theorem emit_fault (v : Byte) (s : State) : (emit v s).fault = s.fault := rfl
@[simp] theorem emit_mem (v : Byte) (s : State) : (emit v s).mem = s.mem := rfl
@[simp] theorem emit_out (v : Byte) (s : State) : (emit v s).out = s.out ++ [v] := rfl

@[simp] theorem writeE_x (f : Bool) (s : State) : (writeE f s).x = s.x := rfl
@[simp] theorem writeE_pc (f : Bool) (s : State) : (writeE f s).pc = s.pc := rfl
@[simp] theorem writeE_e (f : Bool) (s : State) : (writeE f s).e = f := rfl
@[simp] theorem writeE_run (f : Bool) (s : State) : (writeE f s).run = s.run := rfl
@[simp] theorem writeE_fault (f : Bool) (s : State) : (writeE f s).fault = s.fault := rfl
@[simp] theorem writeE_mem (f : Bool) (s : State) : (writeE f s).mem = s.mem := rfl
@[simp] theorem writeE_out (f : Bool) (s : State) : (writeE f s).out = s.out := rfl

@[simp] theorem raise_x (o : Option Byte) (c : Cause) (s : State) : (raise o c s).x = s.x := rfl
@[simp] theorem raise_pc (o : Option Byte) (c : Cause) (s : State) : (raise o c s).pc = s.pc := rfl
@[simp] theorem raise_e (o : Option Byte) (c : Cause) (s : State) : (raise o c s).e = s.e := rfl
@[simp] theorem raise_run (o : Option Byte) (c : Cause) (s : State) : (raise o c s).run = .faulted := rfl
@[simp] theorem raise_fault (o : Option Byte) (c : Cause) (s : State) : (raise o c s).fault = some ⟨c.kind, s.pc, o, c.info⟩ := rfl
@[simp] theorem raise_mem (o : Option Byte) (c : Cause) (s : State) : (raise o c s).mem = s.mem := rfl
@[simp] theorem raise_out (o : Option Byte) (c : Cause) (s : State) : (raise o c s).out = s.out := rfl

@[simp] theorem placeAtPc_x (bs : List Byte) (s : State) : (placeAtPc bs s).x = s.x := rfl
@[simp] theorem placeAtPc_pc (bs : List Byte) (s : State) : (placeAtPc bs s).pc = s.pc := rfl
@[simp] theorem placeAtPc_e (bs : List Byte) (s : State) : (placeAtPc bs s).e = s.e := rfl
@[simp] theorem placeAtPc_run (bs : List Byte) (s : State) : (placeAtPc bs s).run = .running := rfl
@[simp] theorem placeAtPc_fault (bs : List Byte) (s : State) : (placeAtPc bs s).fault = s.fault := rfl
@[simp] theorem placeAtPc_mem (bs : List Byte) (s : State) : (placeAtPc bs s).mem = placeBytes s.pc.toNat bs s.mem := rfl
@[simp] theorem placeAtPc_out (bs : List Byte) (s : State) : (placeAtPc bs s).out = s.out := rfl

theorem readReg_writeReg (r q : RegId) (v : Byte) (s : State) :
    readReg q (writeReg r v s) = if r = q then v else readReg q s := by
  simp only [readReg, writeReg_x, Vector.getElem_set, Fin.ext_iff]

@[simp] theorem readReg_writeReg_same (r : RegId) (v : Byte) (s : State) : readReg r (writeReg r v s) = v := by
  simp [readReg_writeReg]

theorem readReg_writeReg_of_ne (r q : RegId) (v : Byte) (s : State) (h : r ≠ q) :
    readReg q (writeReg r v s) = readReg q s := by
  simp [readReg_writeReg, h]

@[simp] theorem readReg_writePc (q : RegId) (t : Byte) (s : State) : readReg q (writePc t s) = readReg q s := rfl
@[simp] theorem readReg_enterHalted (q : RegId) (s : State) : readReg q (enterHalted s) = readReg q s := rfl
@[simp] theorem readReg_emit (q : RegId) (v : Byte) (s : State) : readReg q (emit v s) = readReg q s := rfl
@[simp] theorem readReg_writeE (q : RegId) (f : Bool) (s : State) : readReg q (writeE f s) = readReg q s := rfl
@[simp] theorem readReg_raise (q : RegId) (o : Option Byte) (c : Cause) (s : State) :
    readReg q (raise o c s) = readReg q s := rfl
@[simp] theorem readE_eq (s : State) : readE s = s.e := rfl

/-- `trunc8` of a natural number is its remainder modulo 256. -/
@[simp] theorem trunc8_natCast (n : Nat) : trunc8 (n : Int) = BitVec.ofNat 8 n := by
  simp [trunc8]

/-- `trunc8` in numbers: the mathematical modulus. -/
theorem toNat_trunc8 (n : Int) : ((trunc8 n).toNat : Int) = n % 256 := by
  simp only [trunc8, BitVec.toNat_ofInt]
  omega

end Sys2Proof.Machine
end

