-- ==== Sys2Proof/Laws/Engine.lean ====
section
/-! SUPPORT. What the shared operations of a step can do, said once: advance, retire, the three operand forms, fetch and step. -/

namespace Sys2Proof.Machine

/-- `advance` moves the pc by the length, or faults and leaves it. -/
theorem advance_cases (op : Op) (n : Nat) (s : State) :
    (s.pc.toNat + 1 + n ≤ 255 ∧ advance op n s = writePc (BitVec.ofNat 8 (s.pc.toNat + 1 + n)) s) ∨
      (255 < s.pc.toNat + 1 + n ∧
        advance op n s = raise (some (opcodeByte op)) ⟨.addressOutOfRange, s.pc.toNat + 1 + n⟩ s) := by
  by_cases h : Config.memSize ≤ s.pc.toNat + 1 + n
  · exact .inr ⟨h, by rw [advance, if_pos h]⟩
  · refine .inl ⟨?_, by rw [advance, if_neg h]⟩
    have : ¬ 256 ≤ s.pc.toNat + 1 + n := h
    omega

@[simp] theorem advance_x (op : Op) (n : Nat) (s : State) : (advance op n s).x = s.x := by
  rcases advance_cases op n s with ⟨_, h⟩ | ⟨_, h⟩ <;> rw [h] <;> rfl
@[simp] theorem advance_e (op : Op) (n : Nat) (s : State) : (advance op n s).e = s.e := by
  rcases advance_cases op n s with ⟨_, h⟩ | ⟨_, h⟩ <;> rw [h] <;> rfl
@[simp] theorem advance_mem (op : Op) (n : Nat) (s : State) : (advance op n s).mem = s.mem := by
  rcases advance_cases op n s with ⟨_, h⟩ | ⟨_, h⟩ <;> rw [h] <;> rfl
@[simp] theorem advance_out (op : Op) (n : Nat) (s : State) : (advance op n s).out = s.out := by
  rcases advance_cases op n s with ⟨_, h⟩ | ⟨_, h⟩ <;> rw [h] <;> rfl

/-- What the engine makes of an ALU result: one write and an advance, a jump, or DivisionByZero. -/
theorem retire_cases (f : AluOp) (n : Nat) (ra : RegId) (rb : Nat) (r : AluResult) (s : State) :
    (∃ v, r = .regValue v ∧ retire f n ra rb r s = advance (.alu f) n (writeReg ra v s)) ∨
      (∃ t, r = .newPc t ∧ retire f n ra rb r s = writePc t s) ∨
      (∃ b, r = .newFlag b ∧ retire f n ra rb r s = advance (.alu f) n (writeE b s)) ∨
      (r = .noChange ∧ retire f n ra rb r s = advance (.alu f) n s) ∨
      (r = .divisionByZero ∧
        retire f n ra rb r s = raise (some (opcodeByte (.alu f))) ⟨.divisionByZero, rb⟩ s) := by
  cases r with
  | regValue v => exact .inl ⟨v, rfl, rfl⟩
  | newPc t => exact .inr (.inl ⟨t, rfl, rfl⟩)
  | newFlag b => exact .inr (.inr (.inl ⟨b, rfl, rfl⟩))
  | noChange => exact .inr (.inr (.inr (.inl ⟨rfl, rfl⟩)))
  | divisionByZero => exact .inr (.inr (.inr (.inr ⟨rfl, rfl⟩)))

/-- A legal F2R instruction retires the ALU's result. -/
@[simp] theorem runF2R_regByte (f : AluOp) (a b : RegId) (s : State) :
    runF2R f (regByte a) (regByte b) s = retire f 2 a b.val (alu f (readReg a s) (readReg b s) s.e) s := by
  simp [runF2R, operandsF2R]

/-- A legal F1 instruction retires the ALU's result. -/
@[simp] theorem runF1_regByte (f : AluOp) (a : RegId) (s : State) :
    runF1 f (regByte a) s = retire f 1 a 0 (alu f (readReg a s) 0 s.e) s := by
  simp [runF1, operandsF1]

/-- A legal F2I instruction retires the ALU's result. -/
@[simp] theorem runF2I_regByte (f : AluOp) (a : RegId) (v : Byte) (s : State) :
    runF2I f (regByte a) v s = retire f 2 a 0 (alu f (readReg a s) v s.e) s := by
  simp [runF2I, operandsF2I]

/-- An F2R instruction is legal, or raises the first illegal index. -/
theorem runF2R_cases (f : AluOp) (ra rb : Byte) (s : State) :
    (∃ a b : RegId, ra = regByte a ∧ rb = regByte b ∧
        runF2R f ra rb s = retire f 2 a b.val (alu f (readReg a s) (readReg b s) s.e) s) ∨
      (∃ c : Byte, [ra, rb].find? (fun b => decide (8 ≤ b.toNat)) = some c ∧
        runF2R f ra rb s = raise (some (opcodeByte (.alu f))) ⟨.registerIndexOutOfRange, c.toNat⟩ s) := by
  rcases regIdx_cases ra with ⟨a, ha, ea⟩ | ⟨ha, ea⟩
  · have hna : ¬ 8 ≤ ra.toNat := by
      subst ha; rw [toNat_regByte]; exact Nat.not_le.mpr a.isLt
    rcases regIdx_cases rb with ⟨b, hb, eb⟩ | ⟨hb, eb⟩
    · subst ha hb
      exact .inl ⟨a, b, rfl, rfl, runF2R_regByte f a b s⟩
    · exact .inr ⟨rb, by simp [List.find?, hna, hb], by simp [runF2R, operandsF2R, ea, eb]⟩
  · exact .inr ⟨ra, by simp [List.find?, ha], by simp [runF2R, operandsF2R, ea]⟩

/-- An F1 instruction is legal, or raises its illegal index. -/
theorem runF1_cases (f : AluOp) (ra : Byte) (s : State) :
    (∃ a : RegId, ra = regByte a ∧ runF1 f ra s = retire f 1 a 0 (alu f (readReg a s) 0 s.e) s) ∨
      (8 ≤ ra.toNat ∧
        runF1 f ra s = raise (some (opcodeByte (.alu f))) ⟨.registerIndexOutOfRange, ra.toNat⟩ s) := by
  rcases regIdx_cases ra with ⟨a, ha, ea⟩ | ⟨ha, ea⟩
  · subst ha
    exact .inl ⟨a, rfl, runF1_regByte f a s⟩
  · exact .inr ⟨ha, by simp [runF1, operandsF1, ea]⟩

/-- An F2I instruction is legal, or raises its illegal index. -/
theorem runF2I_cases (f : AluOp) (ra imm : Byte) (s : State) :
    (∃ a : RegId, ra = regByte a ∧ runF2I f ra imm s = retire f 2 a 0 (alu f (readReg a s) imm s.e) s) ∨
      (8 ≤ ra.toNat ∧
        runF2I f ra imm s = raise (some (opcodeByte (.alu f))) ⟨.registerIndexOutOfRange, ra.toNat⟩ s) := by
  rcases regIdx_cases ra with ⟨a, ha, ea⟩ | ⟨ha, ea⟩
  · subst ha
    exact .inl ⟨a, rfl, runF2I_regByte f a imm s⟩
  · exact .inr ⟨ha, by simp [runF2I, operandsF2I, ea]⟩

/-- A legal PRN emits and advances. -/
@[simp] theorem execPrn_regByte (a : RegId) (s : State) :
    execPrn (regByte a) s = .next (advance .prn 1 (emit (readReg a s) s)) := by
  simp [execPrn, operandsF1]

/-- PRN is legal, or raises its illegal index. -/
theorem execPrn_cases (ra : Byte) (s : State) :
    (∃ a : RegId, ra = regByte a ∧ execPrn ra s = .next (advance .prn 1 (emit (readReg a s) s))) ∨
      (8 ≤ ra.toNat ∧
        execPrn ra s = .next (raise (some (opcodeByte .prn)) ⟨.registerIndexOutOfRange, ra.toNat⟩ s)) := by
  rcases regIdx_cases ra with ⟨a, ha, ea⟩ | ⟨ha, ea⟩
  · subst ha
    exact .inl ⟨a, rfl, execPrn_regByte a s⟩
  · exact .inr ⟨ha, by simp [execPrn, operandsF1, ea]⟩

/-- Everything an instruction can do: refuse an operand byte above 7, halt, emit, or retire the ALU's result of its operation on the
values of the registers it names. -/
def ExecShape (i : Instr) (s : State) : Prop :=
  (∃ b ∈ i.regBytes, 8 ≤ b.toNat ∧
      exec i s = .next (raise (some (opcodeByte (instrOp i))) ⟨.registerIndexOutOfRange, b.toNat⟩ s)) ∨
    (i = .hlt ∧ exec i s = .next (enterHalted s)) ∨
    (∃ a : RegId, i = .prn (regByte a) ∧ exec i s = .next (advance .prn 1 (emit (readReg a s) s))) ∨
    (∃ (f : AluOp) (a : RegId) (rb : Nat) (v : Byte), instrOp i = .alu f ∧
      ((i.regBytes = [regByte a] ∧ rb = 0 ∧ (f = .ldi → i = .ldi (regByte a) v)) ∨
        (∃ b : RegId, i.regBytes = [regByte a, regByte b] ∧ rb = b.val ∧ v = readReg b s)) ∧
      exec i s = .next (retire f (operandCount (.alu f)) a rb (alu f (readReg a s) v s.e) s))

theorem execShape_of_runF2R (i : Instr) (s : State) (f : AluOp) (ra rb : Byte) (hreg : i.regBytes = [ra, rb])
    (hop : instrOp i = .alu f) (hn : operandCount (.alu f) = 2) (hexec : exec i s = .next (runF2R f ra rb s)) :
    ExecShape i s := by
  rcases runF2R_cases f ra rb s with ⟨a, b, ha, hb, he⟩ | ⟨c, hc, he⟩
  · subst ha hb
    exact .inr (.inr (.inr ⟨f, a, b.val, readReg b s, hop, .inr ⟨b, hreg, rfl, rfl⟩, by rw [hexec, he, hn]⟩))
  · exact .inl ⟨c, hreg ▸ List.mem_of_find?_eq_some hc, by simpa using List.find?_some hc, by rw [hexec, he, hop]⟩

theorem execShape_of_runF1 (i : Instr) (s : State) (f : AluOp) (ra : Byte) (hreg : i.regBytes = [ra])
    (hop : instrOp i = .alu f) (hn : operandCount (.alu f) = 1) (hexec : exec i s = .next (runF1 f ra s)) :
    ExecShape i s := by
  rcases runF1_cases f ra s with ⟨a, ha, he⟩ | ⟨hc, he⟩
  · subst ha
    exact .inr (.inr (.inr ⟨f, a, 0, 0, hop, .inl ⟨hreg, rfl, fun hf => by rw [hf] at hn; cases hn⟩, by rw [hexec, he, hn]⟩))
  · exact .inl ⟨ra, by simp [hreg], hc, by rw [hexec, he, hop]⟩

/-- Every instruction has that shape: a claim about all instructions is four cases. -/
theorem exec_cases (i : Instr) (s : State) : ExecShape i s := by
  cases i with
  | ldi ra imm =>
    rcases runF2I_cases .ldi ra imm s with ⟨a, ha, he⟩ | ⟨hc, he⟩
    · subst ha
      exact .inr (.inr (.inr ⟨.ldi, a, 0, imm, rfl, .inl ⟨rfl, rfl, fun _ => rfl⟩, congrArg _ he⟩))
    · exact .inl ⟨ra, by simp [Instr.regBytes], hc, congrArg _ he⟩
  | prn ra =>
    rcases execPrn_cases ra s with ⟨a, ha, he⟩ | ⟨hc, he⟩
    · subst ha
      exact .inr (.inr (.inl ⟨a, rfl, he⟩))
    · exact .inl ⟨ra, by simp [Instr.regBytes], hc, he⟩
  | add ra rb => exact execShape_of_runF2R _ s .add ra rb rfl rfl rfl rfl
  | sub ra rb => exact execShape_of_runF2R _ s .sub ra rb rfl rfl rfl rfl
  | mul ra rb => exact execShape_of_runF2R _ s .mul ra rb rfl rfl rfl rfl
  | div ra rb => exact execShape_of_runF2R _ s .div ra rb rfl rfl rfl rfl
  | mod ra rb => exact execShape_of_runF2R _ s .mod ra rb rfl rfl rfl rfl
  | and ra rb => exact execShape_of_runF2R _ s .and ra rb rfl rfl rfl rfl
  | or ra rb => exact execShape_of_runF2R _ s .or ra rb rfl rfl rfl rfl
  | xor ra rb => exact execShape_of_runF2R _ s .xor ra rb rfl rfl rfl rfl
  | not ra => exact execShape_of_runF1 _ s .not ra rfl rfl rfl rfl
  | shl ra rb => exact execShape_of_runF2R _ s .shl ra rb rfl rfl rfl rfl
  | shr ra rb => exact execShape_of_runF2R _ s .shr ra rb rfl rfl rfl rfl
  | jmp ra => exact execShape_of_runF1 _ s .jmp ra rfl rfl rfl rfl
  | jeq ra => exact execShape_of_runF1 _ s .jeq ra rfl rfl rfl rfl
  | jne ra => exact execShape_of_runF1 _ s .jne ra rfl rfl rfl rfl
  | cmp ra rb => exact execShape_of_runF2R _ s .cmp ra rb rfl rfl rfl rfl
  | hlt => exact .inr (.inl ⟨rfl, rfl⟩)

/-- A failed fetch changes the run state and the fault record, nothing else. -/
theorem fetchFault_eq (r : DecodeReject Cause) (s : State) :
    ∃ rec : FaultRecord, rec.pc = s.pc ∧ fetchFault r s = { s with run := .faulted, fault := some rec } := by
  cases r with
  | opcodeUnread c => exact ⟨⟨c.kind, s.pc, none, c.info⟩, rfl, rfl⟩
  | unsupported op => exact ⟨⟨.unsupportedOperation, s.pc, some op, op.toNat⟩, rfl, rfl⟩
  | operandUnread op c => exact ⟨⟨c.kind, s.pc, some op, c.info⟩, rfl, rfl⟩

/-- Everything a step can do when it has a next state. -/
theorem step_cases (s t : State) (h : step s = .next t) :
    s.run = .running ∧
      ((∃ r, fetch s = .error r ∧ t = fetchFault r s) ∨ (∃ i, fetch s = .ok i ∧ exec i s = .next t)) := by
  unfold step at h
  cases hr : s.run with
  | halted => rw [hr] at h; cases h
  | faulted => rw [hr] at h; cases h
  | running =>
    refine ⟨rfl, ?_⟩
    rw [hr] at h
    cases hf : fetch s with
    | error r => rw [hf] at h; cases h; exact .inl ⟨r, rfl, rfl⟩
    | ok i => rw [hf] at h; exact .inr ⟨i, rfl, h⟩

/-- DIV and MOD answer a register value or the error of a zero divisor. -/
theorem aluDiv_cases (a b : Byte) : (b.toNat = 0 ∧ aluDiv a b = .divisionByZero) ∨
    (b.toNat ≠ 0 ∧ aluDiv a b = .regValue (BitVec.ofNat 8 (a.toNat / b.toNat))) := by
  by_cases h : b.toNat = 0
  · exact .inl ⟨h, by rw [aluDiv, if_pos h]⟩
  · exact .inr ⟨h, by rw [aluDiv, if_neg h, trunc8_natCast]⟩

theorem aluMod_cases (a b : Byte) : (b.toNat = 0 ∧ aluMod a b = .divisionByZero) ∨
    (b.toNat ≠ 0 ∧ aluMod a b = .regValue (BitVec.ofNat 8 (a.toNat % b.toNat))) := by
  by_cases h : b.toNat = 0
  · exact .inl ⟨h, by rw [aluMod, if_pos h]⟩
  · exact .inr ⟨h, by rw [aluMod, if_neg h, trunc8_natCast]⟩

/-- The ALU's result by kind (R84): the three jumps and CMP by the flag and the comparison, DIV and MOD by the divisor, a register value
otherwise. -/
theorem alu_kind (f : AluOp) (a b : Byte) (e : Bool) :
    (∃ v, alu f a b e = .regValue v) ∨
      (alu f a b e = .newPc a ∧ (f = .jmp ∨ (f = .jeq ∧ e = true) ∨ (f = .jne ∧ e = false))) ∨
      (alu f a b e = .newFlag true ∧ f = .cmp ∧ a = b) ∨
      (alu f a b e = .noChange ∧ ((f = .jeq ∧ e = false) ∨ (f = .jne ∧ e = true) ∨ (f = .cmp ∧ a ≠ b))) ∨
      (alu f a b e = .divisionByZero ∧ (f = .div ∨ f = .mod) ∧ b.toNat = 0) := by
  cases f with
  | div =>
    rcases aluDiv_cases a b with ⟨h, he⟩ | ⟨_, he⟩
    · exact .inr (.inr (.inr (.inr ⟨he, .inl rfl, h⟩)))
    · exact .inl ⟨_, he⟩
  | mod =>
    rcases aluMod_cases a b with ⟨h, he⟩ | ⟨_, he⟩
    · exact .inr (.inr (.inr (.inr ⟨he, .inr rfl, h⟩)))
    · exact .inl ⟨_, he⟩
  | jmp => exact .inr (.inl ⟨rfl, .inl rfl⟩)
  | jeq =>
    cases e
    · exact .inr (.inr (.inr (.inl ⟨rfl, .inl ⟨rfl, rfl⟩⟩)))
    · exact .inr (.inl ⟨rfl, .inr (.inl ⟨rfl, rfl⟩)⟩)
  | jne =>
    cases e
    · exact .inr (.inl ⟨rfl, .inr (.inr ⟨rfl, rfl⟩)⟩)
    · exact .inr (.inr (.inr (.inl ⟨rfl, .inr (.inl ⟨rfl, rfl⟩)⟩)))
  | cmp =>
    by_cases h : a = b
    · exact .inr (.inr (.inl ⟨by simp [alu, aluCmp, compareFlag, h], rfl, h⟩))
    · exact .inr (.inr (.inr (.inl ⟨by simp [alu, aluCmp, compareFlag, h], .inr (.inr ⟨rfl, h⟩)⟩)))
  | ldi => exact .inl ⟨_, rfl⟩
  | add => exact .inl ⟨_, rfl⟩
  | sub => exact .inl ⟨_, rfl⟩
  | mul => exact .inl ⟨_, rfl⟩
  | and => exact .inl ⟨_, rfl⟩
  | or => exact .inl ⟨_, rfl⟩
  | xor => exact .inl ⟨_, rfl⟩
  | not => exact .inl ⟨_, rfl⟩
  | shl => exact .inl ⟨_, rfl⟩
  | shr => exact .inl ⟨_, rfl⟩

end Sys2Proof.Machine
end

