-- ==== Sys2Proof/Laws/Memory.lean ====
section
/-! SUPPORT. Memory: reading after setting a cell, and the canonical form kept by every operation that builds a memory. -/

namespace Sys2Proof.Machine

/-- What a cell holds after another (or the same) one was set. -/
theorem lookupCell_setCell (m : Memory) (addr addr' : Nat) (v : Byte) :
    lookupCell (setCell addr v m) addr' = if addr = addr' then some v else lookupCell m addr' := by
  induction m with
  | nil => simp [setCell, lookupCell]
  | cons c rest ih =>
    obtain ⟨a, w⟩ := c
    by_cases h1 : addr < a
    · simp [setCell, lookupCell, h1]
    · by_cases h2 : a = addr
      · subst h2
        simp only [setCell, lookupCell, lt_irrefl, if_false, if_true]
        split <;> simp_all
      · simp only [setCell, lookupCell, h1, h2, if_false, ih]
        split
        · split <;> simp_all
        · rfl

theorem risingFrom_mono {lo lo' : Nat} (h : lo' ≤ lo) (m : Memory) (hm : risingFrom lo m = true) :
    risingFrom lo' m = true := by
  cases m with
  | nil => rfl
  | cons c rest =>
    obtain ⟨a, w⟩ := c
    simp only [risingFrom, Bool.and_eq_true, decide_eq_true_eq] at hm ⊢
    exact ⟨⟨h.trans hm.1.1, hm.1.2⟩, hm.2⟩

theorem risingFrom_setCell (addr : Nat) (v : Byte) (h : addr < Config.memSize) (m : Memory) :
    ∀ lo, lo ≤ addr → risingFrom lo m = true → risingFrom lo (setCell addr v m) = true := by
  induction m with
  | nil => intro lo hlo _; simp [setCell, risingFrom, hlo, h]
  | cons c rest ih =>
    obtain ⟨a, w⟩ := c
    intro lo hlo hm
    simp only [risingFrom, Bool.and_eq_true, decide_eq_true_eq] at hm
    by_cases h1 : addr < a
    · have ha : addr + 1 ≤ a := h1
      simp [setCell, h1, risingFrom, hlo, h, ha, hm.1.2, hm.2]
    · by_cases h2 : a = addr
      · subst h2
        simp [setCell, risingFrom, hlo, h, hm.2]
      · simp only [setCell, h1, h2, if_false, risingFrom, Bool.and_eq_true, decide_eq_true_eq]
        exact ⟨hm.1, ih (a + 1) (by omega) hm.2⟩

/-- Everything MemWrite can answer. -/
theorem memWrite_cases (m : Memory) (addr v : Nat) :
    (addr < Config.memSize ∧ memWrite m addr v = .ok (setCell addr (BitVec.ofNat 8 v) m)) ∨
      (Config.memSize ≤ addr ∧ memWrite m addr v = .error ⟨.addressOutOfRange, addr⟩) := by
  by_cases h : Config.memSize ≤ addr
  · exact .inr ⟨h, by rw [memWrite, if_pos h]⟩
  · exact .inl ⟨by omega, by simp only [memWrite, if_neg h, trunc8, BitVec.ofInt_natCast]⟩

/-- MemWrite keeps the canonical form. -/
theorem memWrite_keeps_wf (m m' : Memory) (addr v : Nat) (hm : Memory.wf m = true) (h : memWrite m addr v = .ok m') :
    Memory.wf m' = true := by
  rcases memWrite_cases m addr v with ⟨ha, he⟩ | ⟨_, he⟩
  · rw [he] at h
    cases h
    exact risingFrom_setCell addr _ ha m 0 (Nat.zero_le _) hm
  · rw [he] at h
    cases h

/-- The host's load keeps the canonical form, whether or not it completes. -/
theorem hostLoad_keeps_wf (program : List Nat) :
    ∀ (addr : Nat) (m : Memory), Memory.wf m = true → Memory.wf (hostLoad addr program m).1 = true := by
  induction program with
  | nil => intro addr m hm; exact hm
  | cons v vs ih =>
    intro addr m hm
    rcases memWrite_cases m addr v with ⟨_, he⟩ | ⟨_, he⟩
    · simp only [hostLoad, he]
      exact ih _ _ (memWrite_keeps_wf m _ addr v hm he)
    · simp only [hostLoad, he]
      exact hm

/-- Placing bytes keeps the canonical form. -/
theorem placeBytes_keeps_wf (bs : List Byte) :
    ∀ (addr : Nat) (m : Memory), Memory.wf m = true → Memory.wf (placeBytes addr bs m) = true := by
  induction bs with
  | nil => intro addr m hm; exact hm
  | cons b bs ih =>
    intro addr m hm
    rcases memWrite_cases m addr b.toNat with ⟨_, he⟩ | ⟨_, he⟩
    · simp only [placeBytes, he]
      exact ih _ _ (memWrite_keeps_wf m _ addr _ hm he)
    · simp only [placeBytes, he]
      exact hm

/-- The memory after reset is in canonical form. -/
theorem reset_mem_wf : Memory.wf State.reset.mem = true := rfl

/-- Everything MemRead can answer. -/
theorem memRead_cases (m : Memory) (addr : Nat) :
    (256 ≤ addr ∧ memRead m addr = .error ⟨.addressOutOfRange, addr⟩) ∨
      (addr < 256 ∧ lookupCell m addr = none ∧ memRead m addr = .error ⟨.uninitializedMemoryRead, addr⟩) ∨
      (addr < 256 ∧ ∃ v, lookupCell m addr = some v ∧ memRead m addr = .ok v) := by
  by_cases h : Config.memSize ≤ addr
  · exact .inl ⟨h, by rw [memRead, if_pos h]⟩
  · refine .inr ?_
    have hlt : addr < 256 := by simpa using h
    cases hl : lookupCell m addr with
    | none => exact .inl ⟨hlt, rfl, by simp only [memRead, if_neg h, hl]⟩
    | some v => exact .inr ⟨hlt, v, rfl, by simp only [memRead, if_neg h, hl]⟩

end Sys2Proof.Machine
end

