-- ==== Sys2Proof/Laws/PerInstr.lean ====
section
/-! SUPPORT. The form of every instruction's encoding, one lemma per constructor (30_encoding.md R50, R51, R54). -/

namespace Sys2Proof.Laws.EncodedForm

/-- The encoding is as long as its opcode says, starts with the opcode byte, whose operation it is, and every byte that is validated as a
register index is one of its operand bytes. -/
def Statement (i : Instr) : Prop :=
  (encode i).length = instrLength i ∧ (encode i).head?.bind lookupOp = some (instrOp i) ∧
    i.regBytes <+: (encode i).tail

theorem ldi (ra imm : Byte) : Statement (.ldi ra imm) := by
  refine ⟨rfl, rfl, ?_⟩
  simp [Instr.regBytes, encode, operandBytes]

theorem prn (ra : Byte) : Statement (.prn ra) := by
  refine ⟨rfl, rfl, ?_⟩
  simp [Instr.regBytes, encode, operandBytes]

theorem add (ra rb : Byte) : Statement (.add ra rb) := by
  refine ⟨rfl, rfl, ?_⟩
  simp [Instr.regBytes, encode, operandBytes]

theorem sub (ra rb : Byte) : Statement (.sub ra rb) := by
  refine ⟨rfl, rfl, ?_⟩
  simp [Instr.regBytes, encode, operandBytes]

theorem mul (ra rb : Byte) : Statement (.mul ra rb) := by
  refine ⟨rfl, rfl, ?_⟩
  simp [Instr.regBytes, encode, operandBytes]

theorem div (ra rb : Byte) : Statement (.div ra rb) := by
  refine ⟨rfl, rfl, ?_⟩
  simp [Instr.regBytes, encode, operandBytes]

theorem mod (ra rb : Byte) : Statement (.mod ra rb) := by
  refine ⟨rfl, rfl, ?_⟩
  simp [Instr.regBytes, encode, operandBytes]

theorem and (ra rb : Byte) : Statement (.and ra rb) := by
  refine ⟨rfl, rfl, ?_⟩
  simp [Instr.regBytes, encode, operandBytes]

theorem or (ra rb : Byte) : Statement (.or ra rb) := by
  refine ⟨rfl, rfl, ?_⟩
  simp [Instr.regBytes, encode, operandBytes]

theorem xor (ra rb : Byte) : Statement (.xor ra rb) := by
  refine ⟨rfl, rfl, ?_⟩
  simp [Instr.regBytes, encode, operandBytes]

theorem not (ra : Byte) : Statement (.not ra) := by
  refine ⟨rfl, rfl, ?_⟩
  simp [Instr.regBytes, encode, operandBytes]

theorem shl (ra rb : Byte) : Statement (.shl ra rb) := by
  refine ⟨rfl, rfl, ?_⟩
  simp [Instr.regBytes, encode, operandBytes]

theorem shr (ra rb : Byte) : Statement (.shr ra rb) := by
  refine ⟨rfl, rfl, ?_⟩
  simp [Instr.regBytes, encode, operandBytes]

theorem jmp (ra : Byte) : Statement (.jmp ra) := by
  refine ⟨rfl, rfl, ?_⟩
  simp [Instr.regBytes, encode, operandBytes]

theorem jeq (ra : Byte) : Statement (.jeq ra) := by
  refine ⟨rfl, rfl, ?_⟩
  simp [Instr.regBytes, encode, operandBytes]

theorem jne (ra : Byte) : Statement (.jne ra) := by
  refine ⟨rfl, rfl, ?_⟩
  simp [Instr.regBytes, encode, operandBytes]

theorem cmp (ra rb : Byte) : Statement (.cmp ra rb) := by
  refine ⟨rfl, rfl, ?_⟩
  simp [Instr.regBytes, encode, operandBytes]

theorem hlt : Statement (.hlt) := by
  refine ⟨rfl, rfl, ?_⟩
  simp [Instr.regBytes, encode, operandBytes]

end Sys2Proof.Laws.EncodedForm
end

