-- ==== Sys2Proof/Laws/Session.lean ====
section
/-! SUPPORT. What the host can read: nothing during a run, the whole state after it (70_reset_and_hazards.md R197, R200). -/

namespace Sys2Proof.Machine

/-- Everything an observation can be. -/
theorem observe_cases (z : Session) :
    (z.core.run = .running ∧ z.observe = none) ∨ (z.core.run ≠ .running ∧ z.observe = some (observationOf z.core)) := by
  unfold Session.observe
  cases h : z.core.run <;> simp

/-- An observation leaves nothing of the state out: states that read the same are the same. -/
theorem observationOf_injective {s t : State} (h : observationOf s = observationOf t) : s = t := by
  cases s
  cases t
  simp_all [observationOf]

end Sys2Proof.Machine
end

