-- ==== Sys2Proof/Tests/Slice0.lean ====
section
/-! SUPPORT. The model's own tests, with expected results from spec/ (the section or vector is named at each), and for every statement
with hypotheses a witness that meets them, one for each clause. -/

namespace Sys2Proof.Tests

open Sys2Proof.Machine Sys2Proof.Spec

/-- The next state of an outcome, none for a fault or a refusal of the model. -/
def next? (o : Outcome) : Option State :=
  match o with
  | .next t => some t
  | .fault _ => none
  | .refused _ => none

/-- The instruction a decoder gives, none where it rejects. -/
def instr? (bs : List Byte) : Option Instr :=
  match decode bs with
  | .ok (i, _) => some i
  | .error _ => none

/-- The byte a decoder rejects as an opcode, none where it does not. -/
def rejected? (bs : List Byte) : Option Byte :=
  match decode bs with
  | .error (.unsupported b) => some b
  | _ => none

/-- The reset state with bytes placed at an address, the pc there, and `x0` and `x1` set. -/
def at_ (pc : Nat) (bytes : List Byte) (x0 x1 : Byte) : State :=
  { State.reset with pc := BitVec.ofNat 8 pc, mem := placeBytes pc bytes [], x := #v[x0, x1, 0, 0, 0, 0, 0, 0] }

/-- After one step: `x0`, the pc and the run state. -/
def x0Pc (s : State) : Option (Nat × Nat × RunState) :=
  (next? (step s)).map fun t => ((readReg 0 t).toNat, t.pc.toNat, t.run)

/-- After one step: the fault record, where one is recorded. -/
def fault? (s : State) : Option FaultRecord := (next? (step s)).bind fun t => t.fault

/-- The state after one step, or the state itself where there is none. -/
def stepped (s : State) : State := (next? (step s)).getD s

/-- The state after an instruction, or the state itself where there is none. -/
def executed (i : Instr) (s : State) : State := (next? (exec i s)).getD s

/-! ### WellFormed: an ill-formed term for each check (30_encoding.md R54, R66) -/

theorem test_wf_first_index : (Instr.add 8 0).wf = false ∧ (Instr.ldi 8 0).wf = false ∧ (Instr.prn 255).wf = false := by decide
theorem test_wf_second_index : (Instr.add 0 8).wf = false ∧ (Instr.cmp 7 9).wf = false := by decide
theorem test_wf_immediate_free : (Instr.ldi 7 255).wf = true ∧ (Instr.shr 7 7).wf = true ∧ Instr.hlt.wf = true := by decide

/-! ### Decode: words written bit by bit from 30_encoding.md R51 and R56 -/

theorem test_decode_ldi : instr? [0b10000010, 0b00000111, 0b11111111] = some (.ldi 7 255) := by decide
theorem test_decode_prn : instr? [0b01000111, 0b00000101] = some (.prn 5) := by decide
theorem test_decode_add : instr? [0b10100000, 0b00000001, 0b00000010] = some (.add 1 2) := by decide
theorem test_decode_sub : instr? [0b10100001, 0b00000011, 0b00000100] = some (.sub 3 4) := by decide
theorem test_decode_mul : instr? [0b10100010, 0b00000101, 0b00000110] = some (.mul 5 6) := by decide
theorem test_decode_div : instr? [0b10100011, 0b00000111, 0b00000000] = some (.div 7 0) := by decide
theorem test_decode_mod : instr? [0b10100100, 0b00000010, 0b00000101] = some (.mod 2 5) := by decide
theorem test_decode_and : instr? [0b10101000, 0b00000001, 0b00000110] = some (.and 1 6) := by decide
theorem test_decode_or : instr? [0b10101010, 0b00000100, 0b00000011] = some (.or 4 3) := by decide
theorem test_decode_xor : instr? [0b10101011, 0b00000110, 0b00000001] = some (.xor 6 1) := by decide
theorem test_decode_not : instr? [0b01101001, 0b00000111] = some (.not 7) := by decide
theorem test_decode_shl : instr? [0b10101100, 0b00000000, 0b00000111] = some (.shl 0 7) := by decide
theorem test_decode_shr : instr? [0b10101101, 0b00000111, 0b00000001] = some (.shr 7 1) := by decide
theorem test_decode_jmp : instr? [0b01010100, 0b00000011] = some (.jmp 3) := by decide
theorem test_decode_jeq : instr? [0b01010101, 0b00000100] = some (.jeq 4) := by decide
theorem test_decode_jne : instr? [0b01010110, 0b00000110] = some (.jne 6) := by decide
theorem test_decode_cmp : instr? [0b10100111, 0b00000010, 0b00000111] = some (.cmp 2 7) := by decide
theorem test_decode_hlt : instr? [0b00000001] = some .hlt := by decide

/-- V-DEC: bytes beside a supported one, LS-8 bytes this machine has not, and 0x00. -/
theorem test_decode_unsupported :
    ([0x00, 0xFF, 0x83, 0x45, 0x50, 0xA5, 0xA9, 0x02, 0x81, 0xC2, 0x42] : List Byte).all
      (fun b => decide (rejected? [b, 0, 0] = some b)) = true := by decide

/-- Exactly 18 bytes are supported (R60: 238 are not). -/
theorem test_supported_count :
    (((List.range 256).map (BitVec.ofNat 8)).filter fun b => (lookupOp b).isSome).length = 18 := by decide +kernel

/-- A table word numbered as spec/opcode_table.json numbers it: LDI x1, 8 is the bytes 82 01 08; NOT's word has 16 bits. -/
theorem test_table_word :
    decodeTableWord 24 0x080182 = some (.ldi 1 8) ∧ decodeTableWord 16 0x0769 = some (.not 7) ∧ decodeTableWord 8 1 = some .hlt ∧
      decodeTableWord 8 0 = none := by decide

/-- A placed word is what the next step runs. -/
theorem test_with_fetch_word : fetch (State.reset.withFetchWord 24 0x080182) = .ok (.ldi 1 8) := by rfl

/-! ### Steps: 95_test_vectors.md Part 2 -/

theorem test_ldi_zero : x0Pc (at_ 0 [0x82, 0x00, 0x00] 9 0) = some (0, 3, .running) := by decide
theorem test_ldi_advance_fault : x0Pc (at_ 253 [0x82, 0x00, 0x07] 0 0) = some (7, 253, .faulted) ∧
    fault? (at_ 253 [0x82, 0x00, 0x07] 0 0) = some ⟨.addressOutOfRange, 253, some 0x82, 256⟩ := by decide
theorem test_prn_appends : (next? (step { at_ 9 [0x47, 0x00] 17 0 with out := [3] })).map (fun t => (t.out, t.pc)) = some ([3, 17], 11) := by decide
theorem test_prn_advance_fault : (next? (step (at_ 254 [0x47, 0x00] 42 0))).map (fun t => (t.out, t.fault)) =
    some ([42], some ⟨.addressOutOfRange, 254, some 0x47, 256⟩) := by decide
theorem test_add_wraps : x0Pc (at_ 0 [0xA0, 0x00, 0x01] 255 255) = some (254, 3, .running) := by decide
theorem test_add_same_register : x0Pc (at_ 0 [0xA0, 0x00, 0x00] 130 0) = some (4, 3, .running) := by decide
theorem test_sub_borrows : x0Pc (at_ 0 [0xA1, 0x00, 0x01] 8 9) = some (255, 3, .running) := by decide
theorem test_sub_order : x0Pc (at_ 0 [0xA1, 0x00, 0x01] 9 8) = some (1, 3, .running) := by decide
theorem test_mul_low_byte : x0Pc (at_ 0 [0xA2, 0x00, 0x01] 100 200) = some (32, 3, .running) := by decide
theorem test_mul_same_register : x0Pc (at_ 0 [0xA2, 0x00, 0x00] 15 0) = some (225, 3, .running) := by decide
theorem test_div_unsigned : x0Pc (at_ 0 [0xA3, 0x00, 0x01] 255 7) = some (36, 3, .running) := by decide
theorem test_div_by_zero : x0Pc (at_ 0 [0xA3, 0x00, 0x01] 10 0) = some (10, 0, .faulted) ∧
    fault? (at_ 0 [0xA3, 0x00, 0x01] 10 0) = some ⟨.divisionByZero, 0, some 0xA3, 1⟩ := by decide
theorem test_mod_unsigned : x0Pc (at_ 0 [0xA4, 0x00, 0x01] 204 170) = some (34, 3, .running) := by decide
theorem test_mod_by_zero : fault? { at_ 0 [0xA4, 0x02, 0x05] 0 0 with x := #v[0, 0, 9, 0, 0, 0, 0, 0] } =
    some ⟨.divisionByZero, 0, some 0xA4, 5⟩ := by decide
theorem test_and : x0Pc (at_ 0 [0xA8, 0x00, 0x01] 204 170) = some (136, 3, .running) := by decide
theorem test_or : x0Pc (at_ 0 [0xAA, 0x00, 0x01] 204 170) = some (238, 3, .running) := by decide
theorem test_xor : x0Pc (at_ 0 [0xAB, 0x00, 0x01] 204 170) = some (102, 3, .running) := by decide
theorem test_not : x0Pc (at_ 0 [0x69, 0x00] 5 0) = some (250, 2, .running) := by decide
theorem test_not_advance_fault : x0Pc (at_ 254 [0x69, 0x00] 5 0) = some (250, 254, .faulted) := by decide
theorem test_shl_loses_bit_7 : x0Pc (at_ 0 [0xAC, 0x00, 0x01] 129 1) = some (2, 3, .running) := by decide
theorem test_shl_not_modulo_8 : x0Pc (at_ 0 [0xAC, 0x00, 0x01] 8 9) = some (0, 3, .running) := by decide
theorem test_shr_logical : x0Pc (at_ 0 [0xAD, 0x00, 0x01] 255 7) = some (1, 3, .running) := by decide
theorem test_shr_large_amount : x0Pc (at_ 0 [0xAD, 0x00, 0x01] 1 255) = some (0, 3, .running) := by decide
theorem test_jmp_at_254 : x0Pc (at_ 254 [0x54, 0x00] 9 0) = some (9, 9, .running) := by decide
theorem test_jmp_to_255 : x0Pc (at_ 7 [0x54, 0x00] 255 0) = some (255, 255, .running) := by decide
theorem test_jeq_taken : x0Pc { at_ 18 [0x55, 0x00] 22 0 with e := true } = some (22, 22, .running) := by decide
theorem test_jeq_not_taken_at_254 : fault? (at_ 254 [0x55, 0x00] 9 0) = some ⟨.addressOutOfRange, 254, some 0x55, 256⟩ := by decide
theorem test_jne_taken : x0Pc (at_ 20 [0x56, 0x00] 12 0) = some (12, 12, .running) := by decide
theorem test_jne_falls_through : x0Pc { at_ 20 [0x56, 0x00] 12 0 with e := true } = some (12, 22, .running) := by decide
theorem test_cmp_equal : (next? (step (at_ 0 [0xA7, 0x00, 0x01] 5 5))).map (fun t => (t.e, t.pc)) = some (true, 3) := by decide
theorem test_cmp_latch : (next? (step { at_ 0 [0xA7, 0x00, 0x01] 5 6 with e := true })).map (fun t => (t.e, t.pc)) = some (true, 3) := by decide
theorem test_hlt_at_255 : x0Pc (at_ 255 [0x01] 0 0) = some (0, 255, .halted) := by decide
theorem test_hlt_then_no_step : next? (step (stepped (at_ 255 [0x01] 0 0))) = none := by decide

/-- V-OPF: the operand and index faults, in the order R82 gives them. -/
theorem test_operand_unset : fault? (at_ 254 [0xA0] 0 0) = some ⟨.uninitializedMemoryRead, 254, some 0xA0, 255⟩ := by decide
theorem test_operand_past_end : fault? (at_ 255 [0x47] 42 0) = some ⟨.addressOutOfRange, 255, some 0x47, 256⟩ := by decide
theorem test_first_bad_index : fault? (at_ 0 [0xA0, 0x09, 0xC8] 0 0) = some ⟨.registerIndexOutOfRange, 0, some 0xA0, 9⟩ := by decide
theorem test_index_before_divisor : fault? (at_ 0 [0xA3, 0x08, 0x01] 0 0) = some ⟨.registerIndexOutOfRange, 0, some 0xA3, 8⟩ := by decide
theorem test_index_of_jump_not_taken : fault? (at_ 0 [0x55, 0x08] 0 0) = some ⟨.registerIndexOutOfRange, 0, some 0x55, 8⟩ := by decide
theorem test_unsupported_reads_no_operand : fault? (at_ 255 [0x83] 0 0) = some ⟨.unsupportedOperation, 255, some 0x83, 0x83⟩ := by decide
theorem test_opcode_unset : fault? { State.reset with pc := 77 } = some ⟨.uninitializedMemoryRead, 77, none, 77⟩ := by decide

/-- V-MEM: the memory primitives. -/
theorem test_mem_write_truncates : memWrite [] 5 300 = .ok [(5, 44)] := by rfl
theorem test_mem_write_out_of_range : memWrite [] 256 0 = .error ⟨.addressOutOfRange, 256⟩ := by rfl
theorem test_mem_read_unset : memRead [(0, 0x82)] 3 = .error ⟨.uninitializedMemoryRead, 3⟩ := by rfl

/-- 00_scope.md section 6.1: `trunc8 (-1) = 255`. -/
theorem test_trunc8 : trunc8 (-1) = 255 := by decide

/-- 60_exceptions.md R160: the codes. -/
theorem test_fault_codes : [FaultKind.addressOutOfRange, .unsupportedOperation, .divisionByZero, .uninitializedMemoryRead,
    .registerIndexOutOfRange].map faultCode = [1, 2, 3, 4, 5] := by decide

/-- 70_reset_and_hazards.md R193, R201: reset, load, start, one step of HLT: the host then reads a success. -/
def haltSession : Session := ⟨.started, { State.reset with mem := [(0, 0x01)] }⟩

theorem test_session_order : (Session.fresh.move (.load [0x01])).bind (Session.move .start) = .ok haltSession := by rfl
theorem test_session_observe : haltSession.observe = none ∧ succeeded (stepped haltSession.core) = true ∧
    ended (stepped (at_ 0 [0x00] 0 0)) = true ∧ succeeded (stepped (at_ 0 [0x00] 0 0)) = false := by decide

/-- V-HLT and P9: asked for more steps after the end the executor returns the same state; a jump to itself is still running at the bound. -/
theorem test_executor : runFuel 3 (at_ 11 [0x01] 17 9) = { at_ 11 [0x01] 17 9 with run := .halted } ∧
    runFuel 3 (at_ 3 [0x54, 0x00] 3 0) = at_ 3 [0x54, 0x00] 3 0 := by decide

/-- R200: after the end the host reads the whole state, here the output and the two cells the program filled. -/
theorem test_session_observe_whole :
    (Session.observe ⟨.started, stepped { at_ 0 [0x01, 0x07] 17 9 with out := [17] }⟩).map
      (fun o => (o.out, o.mem)) = some ([17], [(0, 0x01), (1, 0x07)]) := by decide

/-! ### Witnesses: the hypotheses of each statement are met, clause by clause -/

/-- A started session about to compare equal registers at address 0, with `E` already set. -/
def latchedSession : Session := ⟨.started, { at_ 0 [0xA7, 0x00, 0x01] 5 5 with e := true }⟩

theorem witness_OnlyResetClears_running :
    Move.step ≠ .reset ∧ latchedSession.move .step = .ok ⟨.started, stepped latchedSession.core⟩ ∧ latchedSession.core.e = true ∧
      memRead latchedSession.core.mem 0 = .ok 0xA7 := ⟨by decide, rfl, rfl, rfl⟩

theorem witness_OnlyResetClears_halted :
    Move.start ≠ .reset ∧
      Session.move .start ⟨.loaded, { State.reset with run := .halted }⟩ = .ok ⟨.started, { State.reset with run := .halted }⟩ ∧
      ({ State.reset with run := .halted } : State).run ≠ .running := ⟨by decide, rfl, by decide⟩

theorem witness_LoadFillsCells : (List.replicate 256 7).length ≤ 256 ∧ 256 < (List.replicate 257 7).length ∧ ([] : List Nat).length ≤ 256 :=
  ⟨by rw [List.length_replicate], by rw [List.length_replicate]; omega, by decide⟩

theorem witness_HostMovesInOrder :
    Session.fresh.move (.load [0x01]) = .ok ⟨.loaded, haltSession.core⟩ ∧
      Session.move .start ⟨.loaded, haltSession.core⟩ = .ok haltSession ∧
      haltSession.move .step = .ok ⟨.started, stepped haltSession.core⟩ ∧
      (Session.observe ⟨.started, stepped haltSession.core⟩).isSome = true := ⟨rfl, rfl, rfl, by decide⟩

theorem witness_MemReadAnswers : Memory.wf [(0, 1), (254, 7)] = true ∧ 255 < 256 ∧ (∀ v : Byte, (255, v) ∉ [(0, (1 : Byte)), (254, 7)]) ∧
    (254, (7 : Byte)) ∈ [(0, (1 : Byte)), (254, 7)] := by
  refine ⟨by decide, by decide, fun v => ?_, by decide⟩
  simp

theorem witness_MemWriteSetsOneCell : 255 < 256 ∧ 255 ≤ 255 ∧ (254 : Nat) ≠ 255 := by decide

theorem witness_MemoryNeverWritten :
    exec (.ldi 0 8) State.reset = .next (executed (.ldi 0 8) State.reset) ∧
      step (at_ 253 [0x82, 0x00, 0x07] 0 0) = .next (stepped (at_ 253 [0x82, 0x00, 0x07] 0 0)) := ⟨rfl, rfl⟩

theorem witness_DecodeInvertsEncode : decode [0xA0, 0x01, 0x02, 0x47] = .ok (.add 1 2, [0x47]) ∧
    ([0xA0, 0x01, 0x02, 0x47] : List Byte) = encode (.add 1 2) ++ [0x47] := ⟨rfl, rfl⟩

theorem witness_UnsupportedOpcodeFaults :
    (at_ 255 [0x83] 0 0).run = .running ∧ memRead (at_ 255 [0x83] 0 0).mem (at_ 255 [0x83] 0 0).pc.toNat = .ok 0x83 ∧
      ∀ i : Instr, (encode i).head? ≠ some 0x83 := by
  refine ⟨rfl, rfl, fun i h => ?_⟩
  have e : opcodeByte (instrOp i) = 0x83 := by simpa [encode] using h
  cases i <;> simp [instrOp, opcodeByte] at e

theorem witness_RegisterIndexFaults :
    ((Instr.jeq 8).regBytes.find? fun c => decide (7 < c.toNat)) = some 8 ∧
      ((Instr.div 7 255).regBytes.find? fun c => decide (7 < c.toNat)) = some 255 := by decide

theorem witness_StepRunsDecoded :
    (at_ 253 [0xA0, 0x00, 0x01] 1 2).run = .running ∧ decode [0xA0, 0x00, 0x01] = .ok (.add 0 1, []) ∧
      memRead (at_ 253 [0xA0, 0x00, 0x01] 1 2).mem 253 = .ok 0xA0 ∧ memRead (at_ 253 [0xA0, 0x00, 0x01] 1 2).mem 254 = .ok 0x00 ∧
      memRead (at_ 253 [0xA0, 0x00, 0x01] 1 2).mem 255 = .ok 0x01 := ⟨rfl, rfl, rfl, rfl, rfl⟩

theorem witness_StepIsListing : State.reset.run = .running ∧ (at_ 253 [0xA0, 0x00, 0x01] 1 2).run = .running := by decide

/-- Each of R82's seven items, alone or before a later one, then none of them with and without a fault of advance. -/
theorem witness_FirstFaultWins_item1 : (faultList { State.reset with pc := 255 }).findSome? id = some ⟨.uninitializedMemoryRead, 255, none, 255⟩ := by
  decide
theorem witness_FirstFaultWins_item2 : (faultList (at_ 255 [0x83] 0 0)).findSome? id = some ⟨.unsupportedOperation, 255, some 0x83, 0x83⟩ := by
  decide
theorem witness_FirstFaultWins_item3 :
    (faultList (at_ 255 [0x82] 0 0)).findSome? id = some ⟨.addressOutOfRange, 255, some 0x82, 256⟩ ∧
      (faultList (at_ 254 [0xA0] 0 0)).findSome? id = some ⟨.uninitializedMemoryRead, 254, some 0xA0, 255⟩ := by decide
theorem witness_FirstFaultWins_item4 :
    (faultList (at_ 254 [0x82, 0x08] 0 0)).findSome? id = some ⟨.addressOutOfRange, 254, some 0x82, 256⟩ ∧
      (faultList (at_ 10 [0x82, 0x00] 0 0)).findSome? id = some ⟨.uninitializedMemoryRead, 10, some 0x82, 12⟩ := by decide
theorem witness_FirstFaultWins_item5 :
    (faultList (at_ 0 [0xA0, 0x09, 0xC8] 0 0)).findSome? id = some ⟨.registerIndexOutOfRange, 0, some 0xA0, 9⟩ := by decide
theorem witness_FirstFaultWins_item6 :
    (faultList (at_ 0 [0xA0, 0x00, 0xFF] 0 0)).findSome? id = some ⟨.registerIndexOutOfRange, 0, some 0xA0, 255⟩ ∧
      (faultList (at_ 0 [0x82, 0x00, 0xFF] 0 0)).findSome? id = none := by decide
theorem witness_FirstFaultWins_item7 :
    (faultList (at_ 253 [0xA3, 0x00, 0x01] 10 0)).findSome? id = some ⟨.divisionByZero, 253, some 0xA3, 1⟩ := by decide
theorem witness_FirstFaultWins_item8 :
    (faultList (at_ 253 [0x82, 0x00, 0x07] 0 0)).findSome? id = none ∧ (stepped (at_ 253 [0x82, 0x00, 0x07] 0 0)).run = .faulted := by decide

theorem witness_StepIffRunning :
    (at_ 0 [0x01] 0 0).run = .running ∧ step (at_ 0 [0x01] 0 0) = .next (stepped (at_ 0 [0x01] 0 0)) ∧
      next? (step { State.reset with run := .faulted }) = none := ⟨rfl, rfl, by decide⟩

/-- The four ways of the pc: a fault, HLT, forward to 255, a jump taken. -/
theorem witness_PcMoves :
    exec (.add 0 9) State.reset = .next (executed (.add 0 9) State.reset) ∧ (executed (.add 0 9) State.reset).run = .faulted ∧
      exec .hlt State.reset = .next (executed .hlt State.reset) ∧
      (executed (.ldi 0 7) { State.reset with pc := 252 }).pc = 255 ∧
      (executed (.jne 0) (at_ 254 [] 9 0)).pc = 9 := ⟨rfl, by decide, rfl, by decide, by decide⟩

theorem witness_DivModRecombine :
    exec (.div (regByte 0) (regByte 1)) (at_ 0 [] 255 7) = .next (executed (.div 0 1) (at_ 0 [] 255 7)) ∧
      exec (.mod (regByte 0) (regByte 1)) (at_ 0 [] 255 7) = .next (executed (.mod 0 1) (at_ 0 [] 255 7)) ∧
      readReg 1 (at_ 0 [] 255 7) ≠ 0 ∧
      exec (.div (regByte 0) (regByte 1)) (at_ 0 [] 255 0) = .next (executed (.div 0 1) (at_ 0 [] 255 0)) ∧
      exec (.mod (regByte 0) (regByte 1)) (at_ 0 [] 255 0) = .next (executed (.mod 0 1) (at_ 0 [] 255 0)) ∧
      readReg 1 (at_ 0 [] 255 0) = 0 := ⟨rfl, rfl, by decide, rfl, rfl, rfl⟩

theorem witness_AddMulCommute :
    exec (.add (regByte 0) (regByte 1)) (at_ 0 [] 200 100) = .next (executed (.add 0 1) (at_ 0 [] 200 100)) ∧
      exec (.add (regByte 1) (regByte 0)) (at_ 0 [] 200 100) = .next (executed (.add 1 0) (at_ 0 [] 200 100)) ∧
      exec (.mul (regByte 0) (regByte 1)) (at_ 0 [] 200 100) = .next (executed (.mul 0 1) (at_ 0 [] 200 100)) ∧
      exec (.mul (regByte 1) (regByte 0)) (at_ 0 [] 200 100) = .next (executed (.mul 1 0) (at_ 0 [] 200 100)) :=
  ⟨rfl, rfl, rfl, rfl⟩

theorem witness_NotTwiceRestores : (at_ 251 [] 170 0).pc.toNat + 4 ≤ 255 := by decide

theorem witness_ShiftRoundTrip :
    (0 : RegId) ≠ 1 ∧ (at_ 249 [] 181 8).pc.toNat + 6 ≤ 255 ∧ (readReg 1 (at_ 249 [] 181 8)).toNat ≤ 8 ∧
      ¬ (readReg 1 (at_ 249 [] 181 9)).toNat ≤ 8 := by decide

theorem witness_SelfJumpNeverEnds :
    (at_ 30 [0x54, 0x00] 30 0).run = .running ∧ fetch (at_ 30 [0x54, 0x00] 30 0) = .ok (.jmp (regByte 0)) ∧
      readReg 0 (at_ 30 [0x54, 0x00] 30 0) = (at_ 30 [0x54, 0x00] 30 0).pc := ⟨rfl, rfl, rfl⟩

theorem witness_EqualFlagLatches :
    step latchedSession.core = .next (stepped latchedSession.core) ∧ latchedSession.core.e = true ∧
      readReg 0 (at_ 0 [] 255 0) ≠ readReg 1 (at_ 0 [] 255 0) := ⟨rfl, rfl, by decide⟩

theorem witness_EqualFlagUsers :
    exec (.cmp 0 1) (at_ 0 [] 5 5) = .next (executed (.cmp 0 1) (at_ 0 [] 5 5)) ∧
      (executed (.cmp 0 1) (at_ 0 [] 5 5)).e ≠ (at_ 0 [] 5 5).e ∧
      (∀ ra, Instr.cmp 0 1 ≠ .jeq ra) ∧ (∀ ra, Instr.cmp 0 1 ≠ .jne ra) :=
  ⟨rfl, by decide, fun _ => Instr.noConfusion, fun _ => Instr.noConfusion⟩

theorem witness_RegisterWritersFrame :
    destination (.add 0 1) = some 0 ∧ exec (.add 0 1) (at_ 0 [] 8 9) = .next (executed (.add 0 1) (at_ 0 [] 8 9)) ∧
      regByte 1 ≠ 0 ∧ exec (.div 0 1) (at_ 0 [] 8 0) = .next (executed (.div 0 1) (at_ 0 [] 8 0)) ∧
      (executed (.div 0 1) (at_ 0 [] 8 0)).run = .faulted := ⟨rfl, rfl, by decide, rfl, by decide⟩

theorem witness_NonWritersFrame :
    destination (.prn 0) = none ∧ exec (.prn 0) (at_ 0 [] 8 9) = .next (executed (.prn 0) (at_ 0 [] 8 9)) ∧
      (∀ ra rb, Instr.prn 0 ≠ .cmp ra rb) ∧
      destination .hlt = none ∧ exec .hlt (at_ 255 [] 8 9) = .next (executed .hlt (at_ 255 [] 8 9)) ∧ (∀ ra, Instr.hlt ≠ .prn ra) :=
  ⟨rfl, rfl, fun _ _ => Instr.noConfusion, rfl, rfl, fun _ => Instr.noConfusion⟩

theorem witness_UnnamedRegistersUntouched :
    regByte 7 ∉ (Instr.add 0 1).regBytes ∧ exec (.add 0 1) (at_ 0 [] 8 9) = .next (executed (.add 0 1) (at_ 0 [] 8 9)) := ⟨by decide, rfl⟩

theorem witness_OutputOnlyByPrn :
    exec (.prn 0) (at_ 254 [] 42 0) = .next (executed (.prn 0) (at_ 254 [] 42 0)) ∧ (executed (.prn 0) (at_ 254 [] 42 0)).out = [42] ∧
      step (at_ 9 [0x47, 0x00] 17 0) = .next (stepped (at_ 9 [0x47, 0x00] 17 0)) := ⟨rfl, by decide, rfl⟩

/-- A fault of another kind, an operand fetch past 255 and an advance past 255. -/
theorem witness_FaultsArePrecise :
    step (at_ 0 [0xA3, 0x00, 0x01] 10 0) = .next (stepped (at_ 0 [0xA3, 0x00, 0x01] 10 0)) ∧
      (stepped (at_ 0 [0xA3, 0x00, 0x01] 10 0)).fault = some ⟨.divisionByZero, 0, some 0xA3, 1⟩ ∧
      step (at_ 255 [0x47] 42 0) = .next (stepped (at_ 255 [0x47] 42 0)) ∧
      (stepped (at_ 255 [0x47] 42 0)).fault = some ⟨.addressOutOfRange, 255, some 0x47, 256⟩ ∧
      step (at_ 254 [0x69, 0x00] 5 0) = .next (stepped (at_ 254 [0x69, 0x00] 5 0)) ∧
      (stepped (at_ 254 [0x69, 0x00] 5 0)).fault = some ⟨.addressOutOfRange, 254, some 0x69, 256⟩ :=
  ⟨rfl, by decide, rfl, by decide, rfl, by decide⟩

theorem witness_AddressOutOfRangeCauses :
    (stepped (at_ 255 [0x47] 42 0)).run = .faulted ∧
      (stepped (at_ 255 [0x47] 42 0)).fault = some ⟨.addressOutOfRange, 255, some 0x47, 256⟩ ∧
      (stepped (at_ 253 [0xA7, 0x00, 0x00] 0 0)).run = .faulted ∧
      (stepped (at_ 253 [0xA7, 0x00, 0x00] 0 0)).fault = some ⟨.addressOutOfRange, 253, some 0xA7, 256⟩ := by decide

theorem witness_StepKeepsInvariant :
    State.inv (at_ 253 [0xA7, 0x00, 0x00] 0 0) = true ∧
      step (at_ 253 [0xA7, 0x00, 0x00] 0 0) = .next (stepped (at_ 253 [0xA7, 0x00, 0x00] 0 0)) ∧
      State.inv (at_ 0 [0x01] 0 0) = true ∧ step (at_ 0 [0x01] 0 0) = .next (stepped (at_ 0 [0x01] 0 0)) :=
  ⟨by decide, rfl, by decide, rfl⟩

theorem witness_LaunchMeetsInvariant : Session.fresh.move (.load [0x01]) = .ok ⟨.loaded, haltSession.core⟩ := rfl

end Sys2Proof.Tests
end

/-! The facts about instructions and the equal flag that the statements of 10_state.md section 3 (R17, R18) need. -/

namespace Sys2Proof.Machine

open Sys2Proof.Spec

/-! ### Instructions by the unit and operand form they go through -/

/-- How an instruction is executed, in every state alike: HLT, PRN, LDI, or an ALU operation on one or two registers. -/
inductive ExecForm (i : Instr) : Prop where
  | hlt (hi : i = .hlt)
  | prn (ra : Byte) (hi : i = .prn ra)
  | ldi (ra imm : Byte) (hi : i = .ldi ra imm)
  | f1 (f : AluOp) (ra : Byte) (hop : instrOp i = .alu f) (hreg : i.regBytes = [ra])
      (hexec : ∀ s, exec i s = .next (runF1 f ra s))
  | f2r (f : AluOp) (ra rb : Byte) (hop : instrOp i = .alu f) (hreg : i.regBytes = [ra, rb])
      (hexec : ∀ s, exec i s = .next (runF2R f ra rb s))

/-- A claim that compares two runs of one instruction is five cases; `exec_cases` serves a claim about one run. -/
theorem execForm (i : Instr) : ExecForm i := by
  cases i with
  | ldi ra imm => exact .ldi ra imm rfl
  | prn ra => exact .prn ra rfl
  | add ra rb => exact .f2r .add ra rb rfl rfl fun _ => rfl
  | sub ra rb => exact .f2r .sub ra rb rfl rfl fun _ => rfl
  | mul ra rb => exact .f2r .mul ra rb rfl rfl fun _ => rfl
  | div ra rb => exact .f2r .div ra rb rfl rfl fun _ => rfl
  | mod ra rb => exact .f2r .mod ra rb rfl rfl fun _ => rfl
  | and ra rb => exact .f2r .and ra rb rfl rfl fun _ => rfl
  | or ra rb => exact .f2r .or ra rb rfl rfl fun _ => rfl
  | xor ra rb => exact .f2r .xor ra rb rfl rfl fun _ => rfl
  | not ra => exact .f1 .not ra rfl rfl fun _ => rfl
  | shl ra rb => exact .f2r .shl ra rb rfl rfl fun _ => rfl
  | shr ra rb => exact .f2r .shr ra rb rfl rfl fun _ => rfl
  | jmp ra => exact .f1 .jmp ra rfl rfl fun _ => rfl
  | jeq ra => exact .f1 .jeq ra rfl rfl fun _ => rfl
  | jne ra => exact .f1 .jne ra rfl rfl fun _ => rfl
  | cmp ra rb => exact .f2r .cmp ra rb rfl rfl fun _ => rfl
  | hlt => exact .hlt rfl

theorem eq_cmp_of_instrOp {i : Instr} (h : instrOp i = .alu .cmp) : ∃ ra rb, i = .cmp ra rb := by
  cases i with
  | cmp ra rb => exact ⟨ra, rb, rfl⟩
  | _ => cases h

theorem eq_jeq_of_instrOp {i : Instr} (h : instrOp i = .alu .jeq) : ∃ ra, i = .jeq ra := by
  cases i with
  | jeq ra => exact ⟨ra, rfl⟩
  | _ => cases h

theorem eq_jne_of_instrOp {i : Instr} (h : instrOp i = .alu .jne) : ∃ ra, i = .jne ra := by
  cases i with
  | jne ra => exact ⟨ra, rfl⟩
  | _ => cases h

/-- The model's advance is the one the statements write out from R76. -/
theorem advance_eq_advanced (op : Op) (n : Nat) (s : State) : advance op n s = advanced op n s := by
  rcases advance_cases op n s with ⟨hle, h⟩ | ⟨hgt, h⟩
  · rw [h, advanced, if_pos hle]; rfl
  · rw [h, advanced, if_neg (Nat.not_le.mpr hgt)]; rfl

/-! ### Who writes the equal flag -/

@[simp] theorem fetchFault_e (r : DecodeReject Cause) (s : State) : (fetchFault r s).e = s.e := by
  obtain ⟨_, _, h⟩ := fetchFault_eq r s
  rw [h]

/-- Retiring an ALU result writes `E` only where the result is a flag. -/
theorem retire_e_cases (f : AluOp) (n : Nat) (a : RegId) (rb : Nat) (r : AluResult) (s : State) :
    (retire f n a rb r s).e = s.e ∨ ∃ b, r = .newFlag b ∧ (retire f n a rb r s).e = b := by
  rcases retire_cases f n a rb r s with ⟨v, _, h⟩ | ⟨t, _, h⟩ | ⟨b, hr, h⟩ | ⟨_, h⟩ | ⟨_, h⟩
  · exact .inl (by simp [h])
  · exact .inl (by simp [h])
  · exact .inr ⟨b, hr, by simp [h]⟩
  · exact .inl (by simp [h])
  · exact .inl (by simp [h])

/-- The ALU answers a flag for CMP alone, and never `false` (R17, R150). -/
theorem alu_eq_newFlag {f : AluOp} {a b : Byte} {e g : Bool} (h : alu f a b e = .newFlag g) : f = .cmp ∧ g = true := by
  rcases alu_kind f a b e with ⟨v, hr⟩ | ⟨hr, _⟩ | ⟨hr, hf, _⟩ | ⟨hr, _⟩ | ⟨hr, _⟩ <;> rw [hr] at h <;> cases h
  exact ⟨hf, rfl⟩

/-- An instruction keeps `E`, or is a CMP that sets it (R17). -/
theorem exec_e_cases {i : Instr} {s t : State} (h : exec i s = .next t) :
    t.e = s.e ∨ ((∃ ra rb, i = .cmp ra rb) ∧ t.e = true) := by
  rcases exec_cases i s with ⟨b, _, _, he⟩ | ⟨_, he⟩ | ⟨a, _, he⟩ | ⟨f, a, rb, v, hop, _, he⟩ <;> rw [he] at h <;> cases h
  · exact .inl rfl
  · exact .inl rfl
  · exact .inl (by simp)
  · rcases retire_e_cases f (operandCount (.alu f)) a rb (alu f (readReg a s) v s.e) s with hkept | ⟨b, hflag, hset⟩
    · exact .inl hkept
    · obtain ⟨rfl, rfl⟩ := alu_eq_newFlag hflag
      exact .inr ⟨eq_cmp_of_instrOp hop, hset⟩

theorem exec_keeps_e_true {i : Instr} {s t : State} (h : exec i s = .next t) (he : s.e = true) : t.e = true := by
  rcases exec_e_cases h with hkept | ⟨_, hset⟩
  · rw [hkept, he]
  · exact hset

/-- The latch of R18. -/
theorem step_keeps_e_true {s t : State} (h : step s = .next t) (he : s.e = true) : t.e = true := by
  obtain ⟨_, ⟨r, _, rfl⟩ | ⟨i, _, hexec⟩⟩ := step_cases s t h
  · rw [fetchFault_e, he]
  · exact exec_keeps_e_true hexec he

/-! ### Legal CMP, JEQ and JNE by the comparison and the flag -/

theorem exec_cmp_of_ne {s : State} {a b : RegId} (h : readReg a s ≠ readReg b s) :
    exec (.cmp (regByte a) (regByte b)) s = .next (advance (.alu .cmp) 2 s) := by
  have halu : alu .cmp (readReg a s) (readReg b s) s.e = .noChange := by simp [alu, aluCmp, compareFlag, h]
  simp [exec, execCmp, halu, retire]

theorem exec_jeq_of_e_true {s : State} (a : RegId) (h : s.e = true) :
    exec (.jeq (regByte a)) s = .next (writePc (readReg a s) s) := by
  simp [exec, execJeq, alu, aluJeq, h, retire]

theorem exec_jne_of_e_true {s : State} (a : RegId) (h : s.e = true) :
    exec (.jne (regByte a)) s = .next (advance (.alu .jne) 1 s) := by
  simp [exec, execJne, alu, aluJne, h, retire]

/-- Settles O43: the latch is `step_keeps_e_true`; the three results are those of the ALU for unequal operands and for a true flag. -/
theorem equalFlagLatches : Obligations.EqualFlagLatches := by
  refine ⟨fun s t => step_keeps_e_true, fun s a b hne => ?_, fun s a he => ⟨exec_jeq_of_e_true a he, ?_⟩⟩
  · rw [exec_cmp_of_ne hne, advance_eq_advanced]
  · rw [exec_jne_of_e_true a he, advance_eq_advanced]

/-! ### Who reads the equal flag

Two states differ at most in `E` when writing one value to the flag of both makes them equal. -/

@[simp] theorem writeE_writeE (f g : Bool) (s : State) : writeE g (writeE f s) = writeE g s := rfl
@[simp] theorem raise_writeE (f : Bool) (o : Option Byte) (c : Cause) (s : State) :
    raise o c (writeE f s) = writeE f (raise o c s) := rfl
@[simp] theorem writeReg_writeE (f : Bool) (r : RegId) (v : Byte) (s : State) :
    writeReg r v (writeE f s) = writeE f (writeReg r v s) := rfl
@[simp] theorem writePc_writeE (f : Bool) (t : Byte) (s : State) : writePc t (writeE f s) = writeE f (writePc t s) := rfl
@[simp] theorem emit_writeE (f : Bool) (v : Byte) (s : State) : emit v (writeE f s) = writeE f (emit v s) := rfl

@[simp] theorem advance_writeE (f : Bool) (op : Op) (n : Nat) (s : State) :
    advance op n (writeE f s) = writeE f (advance op n s) := by
  unfold advance
  rw [apply_ite (writeE f)]
  rfl

/-- Only JEQ and JNE make the ALU look at the flag (R17). -/
theorem alu_ignores_e {f : AluOp} (hjeq : f ≠ .jeq) (hjne : f ≠ .jne) (a b : Byte) (e e' : Bool) :
    alu f a b e = alu f a b e' := by
  cases f with
  | jeq => exact absurd rfl hjeq
  | jne => exact absurd rfl hjne
  | _ => rfl

/-- Retiring one ALU result from states that differ only in `E` ends in states that differ only in `E`. -/
theorem writeE_retire_writeE (e g : Bool) (f : AluOp) (n : Nat) (a : RegId) (rb : Nat) (r : AluResult) (s : State) :
    writeE g (retire f n a rb r (writeE e s)) = writeE g (retire f n a rb r s) := by
  cases r <;> simp [retire]

theorem writeE_execPrn_writeE {ra : Byte} {s t : State} (e g : Bool) (h : execPrn ra s = .next t) :
    ∃ t', execPrn ra (writeE e s) = .next t' ∧ writeE g t' = writeE g t := by
  unfold execPrn at h ⊢
  cases hops : operandsF1 ra with
  | error c => rw [hops] at h; cases h; exact ⟨_, rfl, rfl⟩
  | ok a => rw [hops] at h; cases h; exact ⟨_, rfl, by simp⟩

section
variable {f : AluOp} (hjeq : f ≠ .jeq) (hjne : f ≠ .jne) (e g : Bool)
include hjeq hjne

theorem writeE_retire_alu_writeE (n : Nat) (a : RegId) (rb : Nat) (x y : Byte) (s : State) :
    writeE g (retire f n a rb (alu f x y e) (writeE e s)) = writeE g (retire f n a rb (alu f x y s.e) s) := by
  rw [alu_ignores_e hjeq hjne x y e s.e, writeE_retire_writeE]

theorem writeE_runF1_writeE (ra : Byte) (s : State) : writeE g (runF1 f ra (writeE e s)) = writeE g (runF1 f ra s) := by
  unfold runF1
  cases operandsF1 ra with
  | error c => rfl
  | ok a => exact writeE_retire_alu_writeE hjeq hjne e g 1 a 0 _ _ s

theorem writeE_runF2R_writeE (ra rb : Byte) (s : State) :
    writeE g (runF2R f ra rb (writeE e s)) = writeE g (runF2R f ra rb s) := by
  unfold runF2R
  cases operandsF2R ra rb with
  | error c => rfl
  | ok p => exact writeE_retire_alu_writeE hjeq hjne e g 2 p.1 p.2.val _ _ s

theorem writeE_runF2I_writeE (ra imm : Byte) (s : State) :
    writeE g (runF2I f ra imm (writeE e s)) = writeE g (runF2I f ra imm s) := by
  unfold runF2I
  cases operandsF2I ra imm with
  | error c => rfl
  | ok p => exact writeE_retire_alu_writeE hjeq hjne e g 2 p.1 0 _ _ s

end

/-- No instruction but JEQ and JNE reads `E` (R17): changing it before the instruction changes nothing else after it. -/
theorem exec_ignores_e {i : Instr} {s t : State} (e g : Bool) (hjeq : ∀ ra, i ≠ .jeq ra) (hjne : ∀ ra, i ≠ .jne ra)
    (h : exec i s = .next t) : ∃ t', exec i (writeE e s) = .next t' ∧ writeE g t' = writeE g t := by
  have ne_jeq {f : AluOp} (hop : instrOp i = .alu f) : f ≠ .jeq := by
    rintro rfl
    obtain ⟨ra, hi⟩ := eq_jeq_of_instrOp hop
    exact hjeq ra hi
  have ne_jne {f : AluOp} (hop : instrOp i = .alu f) : f ≠ .jne := by
    rintro rfl
    obtain ⟨ra, hi⟩ := eq_jne_of_instrOp hop
    exact hjne ra hi
  cases execForm i with
  | hlt hi => subst hi; cases h; exact ⟨_, rfl, rfl⟩
  | prn ra hi => subst hi; exact writeE_execPrn_writeE e g h
  | ldi ra imm hi =>
    subst hi; cases h
    exact ⟨_, rfl, writeE_runF2I_writeE (by decide) (by decide) e g ra imm s⟩
  | f1 f ra hop _ hexec =>
    rw [hexec] at h; cases h
    exact ⟨_, hexec _, writeE_runF1_writeE (ne_jeq hop) (ne_jne hop) e g ra s⟩
  | f2r f ra rb hop _ hexec =>
    rw [hexec] at h; cases h
    exact ⟨_, hexec _, writeE_runF2R_writeE (ne_jeq hop) (ne_jne hop) e g ra rb s⟩

/-- Settles O44: the writers are those of `exec_e_cases`, the non-readers those of `exec_ignores_e`. After reset CMP of `x0` with itself sets `E`, and
JEQ and JNE to `x0`, which holds 0, go to 0 or to 2 by the flag. -/
theorem equalFlagUsers : Obligations.EqualFlagUsers := by
  refine ⟨fun i s t h hne => (exec_e_cases h).resolve_left hne,
    ⟨0, 0, State.reset, writePc 3 (writeE true State.reset), rfl, by decide⟩,
    fun i s t e hjeq hjne h => exec_ignores_e e true hjeq hjne h,
    ⟨0, State.reset, writePc 0 (writeE true State.reset), writePc 2 State.reset, rfl, rfl, by decide⟩,
    ⟨0, State.reset, writePc 2 (writeE true State.reset), writePc 0 State.reset, rfl, rfl, by decide⟩⟩

end Sys2Proof.Machine

/-! What MemRead and MemWrite answer, by the cells a memory lists (20_memory.md R30, R31). -/

namespace Sys2Proof.Machine

/-! ### The cells a memory lists -/

theorem mem_of_lookupCell_eq_some {m : Memory} {a : Nat} {v : Byte} (h : lookupCell m a = some v) : (a, v) ∈ m := by
  induction m with
  | nil => cases h
  | cons c rest ih =>
    obtain ⟨b, w⟩ := c
    rw [lookupCell] at h
    by_cases hb : b = a
    · rw [if_pos hb] at h
      cases h
      exact hb ▸ List.mem_cons_self
    · rw [if_neg hb] at h
      exact List.mem_cons_of_mem _ (ih h)

theorem lookupCell_eq_none_of_unlisted {m : Memory} {a : Nat} (h : ∀ v : Byte, (a, v) ∉ m) : lookupCell m a = none :=
  Option.eq_none_iff_forall_ne_some.mpr fun v hv => h v (mem_of_lookupCell_eq_some hv)

theorem risingFrom_cons_iff {lo a : Nat} {v : Byte} {rest : Memory} :
    risingFrom lo ((a, v) :: rest) = true ↔ lo ≤ a ∧ a < Config.memSize ∧ risingFrom (a + 1) rest = true := by
  simp [risingFrom, and_assoc]

theorem addr_bounds_of_mem {m : Memory} {lo a : Nat} {v : Byte} (hm : risingFrom lo m = true) (h : (a, v) ∈ m) :
    lo ≤ a ∧ a < Config.memSize := by
  induction m generalizing lo with
  | nil => cases h
  | cons c rest ih =>
    obtain ⟨b, w⟩ := c
    obtain ⟨hlo, hb, hrest⟩ := risingFrom_cons_iff.mp hm
    rcases List.mem_cons.mp h with heq | htail
    · cases heq
      exact ⟨hlo, hb⟩
    · obtain ⟨hba, ha⟩ := ih hrest htail
      exact ⟨by omega, ha⟩

/-- Addresses rise strictly, so a listed cell is the only one at its address, and the lookup finds it. -/
theorem lookupCell_eq_some_of_mem {m : Memory} {lo a : Nat} {v : Byte} (hm : risingFrom lo m = true) (h : (a, v) ∈ m) :
    lookupCell m a = some v := by
  induction m generalizing lo with
  | nil => cases h
  | cons c rest ih =>
    obtain ⟨b, w⟩ := c
    obtain ⟨_, _, hrest⟩ := risingFrom_cons_iff.mp hm
    rcases List.mem_cons.mp h with heq | htail
    · cases heq
      exact if_pos rfl
    · have hba : b ≠ a := Nat.ne_of_lt (addr_bounds_of_mem hrest htail).1
      rw [lookupCell, if_neg hba]
      exact ih hrest htail

/-! ### MemRead by its three outcomes -/

theorem memRead_of_memSize_le {a : Nat} (m : Memory) (h : Config.memSize ≤ a) :
    memRead m a = .error ⟨.addressOutOfRange, a⟩ := if_pos h

theorem memRead_of_unset {m : Memory} {a : Nat} (ha : a < Config.memSize) (h : lookupCell m a = none) :
    memRead m a = .error ⟨.uninitializedMemoryRead, a⟩ := by
  rw [memRead, if_neg (Nat.not_le.mpr ha), h]

theorem memRead_of_set {m : Memory} {a : Nat} {v : Byte} (ha : a < Config.memSize) (h : lookupCell m a = some v) :
    memRead m a = .ok v := by
  rw [memRead, if_neg (Nat.not_le.mpr ha), h]

/-- A read depends on the memory through the one cell at its address. -/
theorem memRead_congr {m m' : Memory} {a : Nat} (h : lookupCell m a = lookupCell m' a) : memRead m a = memRead m' a := by
  rw [memRead, memRead, h]

/-- Settles O6: a canonical memory's lookup finds exactly the cells it lists, all below 256, and MemRead answers by the lookup. -/
theorem memReadAnswers : Obligations.MemReadAnswers := by
  intro m a hm
  refine ⟨memRead_of_memSize_le m, fun ha hun => ?_, fun v hv => ?_⟩
  · exact memRead_of_unset (Nat.lt_succ_of_le ha) (lookupCell_eq_none_of_unlisted hun)
  · exact memRead_of_set (addr_bounds_of_mem hm hv).2 (lookupCell_eq_some_of_mem hm hv)

/-! ### MemRead after a cell was set -/

theorem memRead_setCell_same {a : Nat} (ha : a < Config.memSize) (v : Byte) (m : Memory) :
    memRead (setCell a v m) a = .ok v :=
  memRead_of_set ha (by rw [lookupCell_setCell, if_pos rfl])

theorem memRead_setCell_of_ne {a b : Nat} (h : b ≠ a) (v : Byte) (m : Memory) :
    memRead (setCell a v m) b = memRead m b :=
  memRead_congr (by rw [lookupCell_setCell, if_neg h.symm])

/-- Settles O7: below 256 MemWrite sets one cell to the truncated value, and a read sees only the cell it names. -/
theorem memWriteSetsOneCell : Obligations.MemWriteSetsOneCell := by
  intro m a v
  rcases memWrite_cases m a v with ⟨ha, hw⟩ | ⟨ha, hw⟩
  · refine ⟨fun h => absurd ha (Nat.not_lt.mpr h), fun _ => ⟨_, hw, memRead_setCell_same ha _ m, fun b hb => ?_⟩⟩
    exact memRead_setCell_of_ne hb _ m
  · exact ⟨fun _ => hw, fun h => absurd h (Nat.not_le.mpr ha)⟩

end Sys2Proof.Machine

/-! The bytes that begin no instruction, and the operand bytes that name no register (30_encoding.md R60, R54). -/

namespace Sys2Proof

/-! ### Unsupported opcode bytes -/

/-- The opcode map is onto the bytes that begin an encoding: a byte begins none exactly when the map does not list it. -/
theorem forall_head?_encode_ne_iff (b : Byte) : (∀ i : Instr, (encode i).head? ≠ some b) ↔ lookupOp b = none := by
  constructor
  · intro hnone
    rw [Option.eq_none_iff_forall_ne_some]
    intro op hop
    apply hnone (assemble op 0 0)
    simp [encode, opcodeByte_of_lookupOp b op hop]
  · rintro hb i hhead
    have hop : opcodeByte (instrOp i) = b := Option.some.inj hhead
    simp [← hop] at hb

theorem decodeFrom_of_unsupported {ε : Type} {byteAt : Nat → Except ε Byte} {b : Byte} (h0 : byteAt 0 = .ok b)
    (hb : lookupOp b = none) : decodeFrom byteAt = .error (.unsupported b) := by
  simp [decodeFrom, h0, hb]

theorem decode_of_unsupported {b : Byte} (hb : lookupOp b = none) (rest : List Byte) :
    decode (b :: rest) = .error (.unsupported b) := by
  rw [decode, decodeFrom_of_unsupported rfl hb]

/-! ### Counting them: of all 256 bytes, the 18 of the opcode map are taken out -/

/-- The 256 bytes. -/
def allBytes : List Byte := (List.finRange 256).map BitVec.ofFin

/-- The 18 bytes of R56. -/
def opcodeBytes : List Byte := allOps.map opcodeByte

/-- The bytes R60 calls unsupported. -/
def unsupportedBytes : List Byte := allBytes.diff opcodeBytes

theorem mem_allBytes (b : Byte) : b ∈ allBytes :=
  List.mem_map.mpr ⟨b.toFin, List.mem_finRange _, rfl⟩

theorem nodup_allBytes : allBytes.Nodup :=
  (List.nodup_finRange 256).map fun _ _ h => congrArg BitVec.toFin h

theorem length_allBytes : allBytes.length = 256 := by
  rw [allBytes, List.length_map, List.length_finRange]

theorem length_opcodeBytes : opcodeBytes.length = 18 := rfl

theorem nodup_opcodeBytes : opcodeBytes.Nodup := by decide

theorem notMem_opcodeBytes_iff (b : Byte) : b ∉ opcodeBytes ↔ lookupOp b = none := by
  simp [opcodeBytes, lookupOp]

theorem mem_unsupportedBytes_iff (b : Byte) : b ∈ unsupportedBytes ↔ lookupOp b = none := by
  rw [unsupportedBytes, nodup_allBytes.mem_sdiff_iff, notMem_opcodeBytes_iff, and_iff_right (mem_allBytes b)]

theorem length_unsupportedBytes : unsupportedBytes.length = 238 := by
  have hsub : opcodeBytes.Subperm allBytes := nodup_opcodeBytes.subperm fun b _ => mem_allBytes b
  have hperm : (opcodeBytes ++ unsupportedBytes).Perm allBytes :=
    List.subperm_append_diff_self_of_count_le fun b _ => hsub.count_le b
  have hlen := hperm.length_eq
  rw [List.length_append, length_opcodeBytes, length_allBytes] at hlen
  omega

end Sys2Proof

namespace Sys2Proof.Machine

open Sys2Proof.Spec

theorem step_of_unsupported {s : State} {b : Byte} (hrun : s.run = .running) (hread : memRead s.mem s.pc.toNat = .ok b)
    (hb : lookupOp b = none) : step s = .next (raise (some b) ⟨.unsupportedOperation, b.toNat⟩ s) := by
  have hfetch : fetch s = .error (.unsupported b) := decodeFrom_of_unsupported hread hb
  rw [step, hrun, hfetch]
  rfl

/-- Settles O11: the bytes that begin no encoding are those the opcode map does not list. -/
theorem unsupportedOpcodeFaults : Obligations.UnsupportedOpcodeFaults := by
  unfold Obligations.UnsupportedOpcodeFaults
  simp only [forall_head?_encode_ne_iff]
  exact ⟨fun b rest hb => decode_of_unsupported hb rest,
    fun s b hrun hread hb => step_of_unsupported hrun hread hb,
    unsupportedBytes, length_unsupportedBytes, nodup_allBytes.diff, (mem_unsupportedBytes_iff 0).mpr rfl,
    mem_unsupportedBytes_iff⟩

/-! ### Illegal register operand bytes -/

theorem regIdx_of_illegal {b : Byte} (hb : 7 < b.toNat) : regIdx b = .error ⟨.registerIndexOutOfRange, b.toNat⟩ :=
  dif_neg (Nat.not_lt.mpr hb)

theorem not_illegal_regByte (r : RegId) : ¬ 7 < (regByte r).toNat := by
  rw [toNat_regByte]
  exact Nat.not_lt.mpr (Nat.le_of_lt_succ r.isLt)

/-- With one byte in a register position, the first illegal one is that byte. -/
theorem illegal_of_find?_singleton {ra b : Byte} (h : ([ra].find? fun c => decide (7 < c.toNat)) = some b) :
    ra = b ∧ 7 < b.toNat :=
  ⟨(List.mem_singleton.mp (List.mem_of_find?_eq_some h)).symm, by simpa using List.find?_some h⟩

theorem execPrn_of_illegal {ra : Byte} (hra : 7 < ra.toNat) (s : State) :
    execPrn ra s = .next (raise (some (opcodeByte .prn)) ⟨.registerIndexOutOfRange, ra.toNat⟩ s) := by
  rw [execPrn, operandsF1, regIdx_of_illegal hra]

theorem runF1_of_illegal {ra : Byte} (hra : 7 < ra.toNat) (f : AluOp) (s : State) :
    runF1 f ra s = raise (some (opcodeByte (.alu f))) ⟨.registerIndexOutOfRange, ra.toNat⟩ s := by
  rw [runF1, operandsF1, regIdx_of_illegal hra]

theorem runF2I_of_illegal {ra : Byte} (hra : 7 < ra.toNat) (f : AluOp) (imm : Byte) (s : State) :
    runF2I f ra imm s = raise (some (opcodeByte (.alu f))) ⟨.registerIndexOutOfRange, ra.toNat⟩ s := by
  rw [runF2I, operandsF2I, regIdx_of_illegal hra]

theorem runF2R_of_find?_illegal {ra rb b : Byte} (h : ([ra, rb].find? fun c => decide (7 < c.toNat)) = some b)
    (f : AluOp) (s : State) :
    runF2R f ra rb s = raise (some (opcodeByte (.alu f))) ⟨.registerIndexOutOfRange, b.toNat⟩ s := by
  rcases runF2R_cases f ra rb s with ⟨p, q, rfl, rfl, _⟩ | ⟨c, hc, hrun⟩
  · simp [not_illegal_regByte] at h
  · have hcb : c = b := Option.some.inj (hc.symm.trans h)
    rw [hrun, hcb]

/-- Settles O12: the four operand forms refuse the first illegal byte before anything else is done. -/
theorem registerIndexFaults : Obligations.RegisterIndexFaults := by
  intro i s b h
  cases execForm i with
  | hlt hi => subst hi; cases h
  | prn ra hi =>
    subst hi
    obtain ⟨rfl, hra⟩ := illegal_of_find?_singleton h
    exact execPrn_of_illegal hra s
  | ldi ra imm hi =>
    subst hi
    obtain ⟨rfl, hra⟩ := illegal_of_find?_singleton h
    exact congrArg _ (runF2I_of_illegal hra .ldi imm s)
  | f1 f ra hop hreg hexec =>
    rw [hreg] at h
    obtain ⟨rfl, hra⟩ := illegal_of_find?_singleton h
    rw [hexec, runF1_of_illegal hra, hop]
    rfl
  | f2r f ra rb hop hreg hexec =>
    rw [hreg] at h
    rw [hexec, runF2R_of_find?_illegal h, hop]
    rfl

end Sys2Proof.Machine

/-! One step by what its fetch answers, and the step as the listing of R79 (40_execution_cycle.md R70 to R79). -/

namespace Sys2Proof

theorem operandBytes_assemble (op : Op) (b1 b2 : Byte) :
    operandBytes (assemble op b1 b2) = [b1, b2].take (operandCount op) := by
  cases op with
  | alu f => cases f <;> rfl
  | prn => rfl
  | hlt => rfl

/-- A decoded instruction's encoding is what the source of bytes holds. -/
theorem byteAt_of_decodeFrom_eq_ok {ε : Type} {byteAt : Nat → Except ε Byte} {i : Instr} (h : decodeFrom byteAt = .ok i)
    {k : Nat} {b : Byte} (hb : (encode i)[k]? = some b) : byteAt k = .ok b := by
  rcases decodeFrom_cases byteAt with ⟨e, _, hd⟩ | ⟨o, _, _, hd⟩ | ⟨op, h0, ⟨hn, hd⟩ | ⟨e, _, _, hd⟩ | ⟨b1, hn, h1, hd⟩ |
    ⟨b1, e, _, _, _, hd⟩ | ⟨b1, b2, hn, h1, h2, hd⟩⟩ <;> rw [hd] at h <;> cases h <;>
    simp only [encode, instrOp_assemble, operandBytes_assemble, hn] at hb
  · match k, hb with
    | 0, rfl => exact h0
  · match k, hb with
    | 0, rfl => exact h0
    | 1, rfl => exact h1
  · match k, hb with
    | 0, rfl => exact h0
    | 1, rfl => exact h1
    | 2, rfl => exact h2

end Sys2Proof

namespace Sys2Proof.Machine

open Sys2Proof.Spec

/-! ### The step by its fetch -/

/-- What a fetch meets in memory (R71 to R73): the first byte that ends it without one, or an instruction. -/
inductive FetchForm (s : State) : Prop where
  | opcodeUnread (c : Cause) (h0 : memRead s.mem s.pc.toNat = .error c) (hf : fetch s = .error (.opcodeUnread c))
  | unsupported (o : Byte) (h0 : memRead s.mem s.pc.toNat = .ok o) (hlook : lookupOp o = none)
      (hf : fetch s = .error (.unsupported o))
  | firstUnread (op : Op) (c : Cause) (h0 : memRead s.mem s.pc.toNat = .ok (opcodeByte op)) (howns : 1 ≤ operandCount op)
      (h1 : memRead s.mem (s.pc.toNat + 1) = .error c) (hf : fetch s = .error (.operandUnread (opcodeByte op) c))
  | secondUnread (op : Op) (b1 : Byte) (c : Cause) (h0 : memRead s.mem s.pc.toNat = .ok (opcodeByte op))
      (howns : operandCount op = 2) (h1 : memRead s.mem (s.pc.toNat + 1) = .ok b1)
      (h2 : memRead s.mem (s.pc.toNat + 2) = .error c) (hf : fetch s = .error (.operandUnread (opcodeByte op) c))
  | ok (i : Instr) (hf : fetch s = .ok i)

theorem fetchForm (s : State) : FetchForm s := by
  rcases decodeFrom_cases fun k => memRead s.mem (s.pc.toNat + k) with ⟨c, h0, hf⟩ | ⟨o, h0, hlook, hf⟩ |
    ⟨op, h0, ⟨_, hf⟩ | ⟨c, howns, h1, hf⟩ | ⟨_, _, _, hf⟩ | ⟨b1, c, howns, h1, h2, hf⟩ | ⟨_, _, _, _, _, hf⟩⟩
  · exact .opcodeUnread c h0 hf
  · exact .unsupported o h0 hlook hf
  · exact .ok _ hf
  · exact .firstUnread op c h0 howns h1 hf
  · exact .ok _ hf
  · exact .secondUnread op b1 c h0 howns h1 h2 hf
  · exact .ok _ hf

theorem memRead_of_fetch {s : State} {i : Instr} (hf : fetch s = .ok i) {k : Nat} {b : Byte} (hb : (encode i)[k]? = some b) :
    memRead s.mem (s.pc.toNat + k) = .ok b :=
  byteAt_of_decodeFrom_eq_ok hf hb

theorem step_of_fetch_error {s : State} {r : DecodeReject Cause} (hrun : s.run = .running) (hf : fetch s = .error r) :
    step s = .next (fetchFault r s) := by
  rw [step, hrun, hf]

theorem step_of_fetch_ok {s : State} {i : Instr} (hrun : s.run = .running) (hf : fetch s = .ok i) : step s = exec i s := by
  rw [step, hrun, hf]

theorem exec_eq_next (i : Instr) (s : State) : ∃ t, exec i s = .next t := by
  rcases exec_cases i s with ⟨_, _, _, h⟩ | ⟨_, h⟩ | ⟨_, _, h⟩ | ⟨_, _, _, _, _, _, h⟩ <;> exact ⟨_, h⟩

theorem step_eq_next {s : State} (hrun : s.run = .running) : ∃ t, step s = .next t := by
  cases hf : fetch s with
  | error r => exact ⟨_, step_of_fetch_error hrun hf⟩
  | ok i => exact step_of_fetch_ok hrun hf ▸ exec_eq_next i s

/-- Settles O16: the engine steps while it runs, since every instruction answers a next state; a failed fetch is one fault record. -/
theorem stepIffRunning : Obligations.StepIffRunning := by
  intro s
  refine ⟨⟨fun ⟨t, h⟩ => (step_cases s t h).1, step_eq_next⟩, fun hrun => ?_⟩
  cases hf : fetch s with
  | error r =>
    obtain ⟨rec, hpc, hfault⟩ := fetchFault_eq r s
    exact .inr ⟨rec, hpc, by rw [step_of_fetch_error hrun hf, hfault]⟩
  | ok i => exact .inl ⟨i, rfl, step_of_fetch_ok hrun hf⟩

/-! ### The listing's reads -/

/-- Reading at the offsets of a list in ascending order gives the list, when every read gives its element. -/
theorem mapM_range_of_getElem? {ε α : Type} {l : List α} {g : Nat → Except ε α} (h : ∀ k b, l[k]? = some b → g k = .ok b) :
    (List.range l.length).mapM g = .ok l := by
  induction l generalizing g with
  | nil => rfl
  | cons a l ih =>
    have h0 : g 0 = .ok a := h 0 a rfl
    have htail : (List.range l.length).mapM (g ∘ Nat.succ) = .ok l := ih fun k b hb => h (k + 1) b hb
    rw [List.length_cons, List.range_succ_eq_map, List.mapM_cons, List.mapM_map, h0, htail]
    rfl

theorem mapM_range_of_first_error {ε α : Type} {n : Nat} {g : Nat → Except ε α} {e : ε} (hn : 1 ≤ n) (h : g 0 = .error e) :
    (List.range n).mapM g = .error e := by
  obtain ⟨m, rfl⟩ := Nat.exists_eq_add_of_le' hn
  rw [List.range_succ_eq_map, List.mapM_cons, h]
  rfl

theorem mapM_range_two_of_second_error {ε α : Type} {g : Nat → Except ε α} {a : α} {e : ε} (h0 : g 0 = .ok a)
    (h1 : g 1 = .error e) : (List.range 2).mapM g = .error e := by
  rw [show List.range 2 = [0, 1] from rfl, List.mapM_cons, h0, List.mapM_cons, h1]
  rfl

theorem badIndex_operandBytes (i : Instr) :
    badIndex (opFormat (instrOp i)) (operandBytes i) = i.regBytes.find? fun b => decide (7 < b.toNat) := by
  cases i <;> rfl

section
variable {s : State} {i : Instr} (hf : fetch s = .ok i)
include hf

theorem memRead_opcode_of_fetch : memRead s.mem s.pc.toNat = .ok (opcodeByte (instrOp i)) :=
  memRead_of_fetch hf (k := 0) rfl

theorem memRead_operands_of_fetch :
    ((List.range (operandCount (instrOp i))).mapM fun k => memRead s.mem (s.pc.toNat + 1 + k)) = .ok (operandBytes i) := by
  rw [← operandBytes_length]
  refine mapM_range_of_getElem? fun k b hb => ?_
  rw [Nat.add_assoc, Nat.add_comm 1 k]
  exact memRead_of_fetch hf (k := k + 1) hb

theorem listing_of_illegal {b : Byte} (h : (i.regBytes.find? fun c => decide (7 < c.toNat)) = some b) :
    listing s = faulted (some (opcodeByte (instrOp i))) .registerIndexOutOfRange b.toNat s := by
  simp only [listing, memRead_opcode_of_fetch hf, lookupOp_opcodeByte, memRead_operands_of_fetch hf, badIndex_operandBytes, h]

theorem listing_of_legal (h : (i.regBytes.find? fun c => decide (7 < c.toNat)) = none) :
    listing s =
      arm (instrOp i) ((operandBytes i).getD 0 0).toNat ((operandBytes i).getD 1 0).toNat ((operandBytes i).getD 1 0) s := by
  simp only [listing, memRead_opcode_of_fetch hf, lookupOp_opcodeByte, memRead_operands_of_fetch hf, badIndex_operandBytes, h]

end

theorem listing_of_fetch_error {s : State} {r : DecodeReject Cause} (hf : fetch s = .error r) : listing s = fetchFault r s := by
  cases fetchForm s with
  | opcodeUnread c h0 hf' =>
    cases hf.symm.trans hf'
    simp only [listing, h0]
    rfl
  | unsupported o h0 hlook hf' =>
    cases hf.symm.trans hf'
    simp only [listing, h0, hlook]
    rfl
  | firstUnread op c h0 howns h1 hf' =>
    cases hf.symm.trans hf'
    have hm := mapM_range_of_first_error (g := fun k => memRead s.mem (s.pc.toNat + 1 + k)) howns h1
    simp only [listing, h0, lookupOp_opcodeByte, hm]
    rfl
  | secondUnread op b1 c h0 howns h1 h2 hf' =>
    cases hf.symm.trans hf'
    have hm := mapM_range_two_of_second_error (g := fun k => memRead s.mem (s.pc.toNat + 1 + k)) h1 h2
    simp only [listing, h0, lookupOp_opcodeByte, howns, hm]
    rfl
  | ok i hf' => cases hf.symm.trans hf'

/-! ### The ALU's results on natural numbers -/

theorem ofNat_toNat (b : Byte) : BitVec.ofNat 8 b.toNat = b := by
  rw [BitVec.ofNat_toNat, BitVec.setWidth_eq]

theorem trunc8_eq_ofNat {n : Int} {m : Nat} (h : n % 256 = (m : Int) % 256) : trunc8 n = BitVec.ofNat 8 m := by
  apply BitVec.eq_of_toNat_eq
  have := toNat_trunc8 n
  rw [BitVec.toNat_ofNat]
  omega

theorem alu_ldi_eq (a b : Byte) (e : Bool) : alu .ldi a b e = .regValue (BitVec.ofNat 8 b.toNat) :=
  congrArg AluResult.regValue (ofNat_toNat b).symm

theorem alu_add_eq (a b : Byte) (e : Bool) : alu .add a b e = .regValue (BitVec.ofNat 8 ((a.toNat + b.toNat) % 256)) :=
  congrArg AluResult.regValue (trunc8_eq_ofNat (by omega))

theorem alu_sub_eq (a b : Byte) (e : Bool) :
    alu .sub a b e = .regValue (BitVec.ofNat 8 ((a.toNat + 256 - b.toNat) % 256)) :=
  congrArg AluResult.regValue (trunc8_eq_ofNat (by have := b.isLt; omega))

theorem alu_mul_eq (a b : Byte) (e : Bool) : alu .mul a b e = .regValue (BitVec.ofNat 8 (a.toNat * b.toNat % 256)) :=
  congrArg AluResult.regValue (trunc8_eq_ofNat (by push_cast; omega))

theorem alu_div_eq (a b : Byte) (e : Bool) :
    alu .div a b e = if b.toNat = 0 then .divisionByZero else .regValue (BitVec.ofNat 8 (a.toNat / b.toNat)) := by
  simp only [alu, aluDiv, trunc8_natCast]

theorem alu_mod_eq (a b : Byte) (e : Bool) :
    alu .mod a b e = if b.toNat = 0 then .divisionByZero else .regValue (BitVec.ofNat 8 (a.toNat % b.toNat)) := by
  simp only [alu, aluMod, trunc8_natCast]

theorem alu_and_eq (a b : Byte) (e : Bool) : alu .and a b e = .regValue (BitVec.ofNat 8 (Nat.land a.toNat b.toNat)) :=
  congrArg AluResult.regValue (ofNat_toNat (a &&& b)).symm

theorem alu_or_eq (a b : Byte) (e : Bool) : alu .or a b e = .regValue (BitVec.ofNat 8 (Nat.lor a.toNat b.toNat)) :=
  congrArg AluResult.regValue (ofNat_toNat (a ||| b)).symm

theorem alu_xor_eq (a b : Byte) (e : Bool) : alu .xor a b e = .regValue (BitVec.ofNat 8 (Nat.xor a.toNat b.toNat)) :=
  congrArg AluResult.regValue (ofNat_toNat (a ^^^ b)).symm

theorem alu_not_eq (a b : Byte) (e : Bool) : alu .not a b e = .regValue (BitVec.ofNat 8 (255 - a.toNat)) :=
  congrArg AluResult.regValue (BitVec.eq_of_toNat_eq (by have := a.isLt; rw [BitVec.toNat_not, BitVec.toNat_ofNat]; omega))

theorem alu_shl_eq (a b : Byte) (e : Bool) : alu .shl a b e = .regValue (BitVec.ofNat 8 (a.toNat * 2 ^ b.toNat % 256)) := by
  refine congrArg AluResult.regValue ?_
  split
  next h =>
    have hdvd : 256 ∣ a.toNat * 2 ^ b.toNat := (Nat.pow_dvd_pow 2 h).mul_left _
    rw [Nat.mod_eq_zero_of_dvd hdvd]
    rfl
  next => exact trunc8_eq_ofNat (by omega)

theorem alu_shr_eq (a b : Byte) (e : Bool) : alu .shr a b e = .regValue (BitVec.ofNat 8 (a.toNat / 2 ^ b.toNat)) := by
  refine congrArg AluResult.regValue ?_
  split
  next h =>
    have hpow : 2 ^ 8 ≤ 2 ^ b.toNat := Nat.pow_le_pow_right (by decide) h
    rw [Nat.div_eq_of_lt (a.isLt.trans_le hpow)]
    rfl
  next => exact trunc8_natCast _

theorem alu_cmp_eq (a b : Byte) (e : Bool) : alu .cmp a b e = if a.toNat = b.toNat then .newFlag true else .noChange := by
  by_cases h : a = b <;> simp [alu, aluCmp, compareFlag, BitVec.toNat_inj, h]

theorem alu_jeq_eq (a b : Byte) (e : Bool) : alu .jeq a b e = if e = true then .newPc a else .noChange := rfl

theorem alu_jne_eq (a b : Byte) (e : Bool) : alu .jne a b e = if e = false then .newPc a else .noChange := by
  cases e <;> rfl

/-! ### The arms of the listing -/

theorem toList_getElem?_eq_readReg (a : RegId) (s : State) : s.x.toList[a.val]? = some (readReg a s) := by
  have ha : a.val < s.x.toList.length := s.x.length_toList.symm ▸ a.isLt
  exact (List.getElem?_eq_getElem ha).trans (congrArg some (Vector.getElem_toList ha))

theorem toList_getD_eq_readReg (a : RegId) (s : State) : s.x.toList.getD a.val 0 = readReg a s := by
  rw [List.getD_eq_getElem?_getD, toList_getElem?_eq_readReg]
  rfl

theorem retire_regValue_eq (f : AluOp) (n : Nat) (a : RegId) (rb : Nat) (v : Byte) (s : State) :
    retire f n a rb (.regValue v) s = advanced (.alu f) n { s with x := s.x.setIfInBounds a.val v } := by
  have hset : s.x.setIfInBounds a.val v = s.x.set a.val v :=
    Vector.ext fun k hk => by rw [Vector.getElem_setIfInBounds, Vector.getElem_set]
  rw [hset]
  exact advance_eq_advanced (.alu f) n (writeReg a v s)

theorem retire_newFlag_eq (f : AluOp) (n : Nat) (a : RegId) (rb : Nat) (b : Bool) (s : State) :
    retire f n a rb (.newFlag b) s = advanced (.alu f) n { s with e := b } :=
  advance_eq_advanced (.alu f) n (writeE b s)

theorem retire_noChange_eq (f : AluOp) (n : Nat) (a : RegId) (rb : Nat) (s : State) :
    retire f n a rb .noChange s = advanced (.alu f) n s :=
  advance_eq_advanced (.alu f) n s

theorem runF2I_ldi_eq_arm (a : RegId) (imm : Byte) (s : State) :
    runF2I .ldi (regByte a) imm s = arm (.alu .ldi) a.val imm.toNat imm s := by
  rw [runF2I_regByte, alu_ldi_eq, retire_regValue_eq]
  rfl

theorem execPrn_eq_arm (a : RegId) (rb : Nat) (imm : Byte) (s : State) :
    execPrn (regByte a) s = .next (arm .prn a.val rb imm s) := by
  rw [execPrn_regByte, advance_eq_advanced]
  simp only [arm, toList_getD_eq_readReg, ofNat_toNat]
  rfl

theorem runF1_eq_arm {f : AluOp} (hformat : opFormat (.alu f) = .f1) (a : RegId) (rb : Nat) (imm : Byte) (s : State) :
    runF1 f (regByte a) s = arm (.alu f) a.val rb imm s := by
  rw [runF1_regByte]
  cases f with
  | not => simp only [alu_not_eq, retire_regValue_eq, arm, toList_getD_eq_readReg]
  | jmp => simp only [arm, toList_getD_eq_readReg, ofNat_toNat]; rfl
  | jeq =>
    simp only [alu_jeq_eq, arm, toList_getD_eq_readReg, ofNat_toNat]
    split
    · rfl
    · exact retire_noChange_eq ..
  | jne =>
    simp only [alu_jne_eq, arm, toList_getD_eq_readReg, ofNat_toNat]
    split
    · rfl
    · exact retire_noChange_eq ..
  | _ => cases hformat

theorem runF2R_eq_arm {f : AluOp} (hformat : opFormat (.alu f) = .f2r) (a b : RegId) (imm : Byte) (s : State) :
    runF2R f (regByte a) (regByte b) s = arm (.alu f) a.val b.val imm s := by
  rw [runF2R_regByte]
  cases f with
  | ldi | not | jmp | jeq | jne => cases hformat
  | div =>
    simp only [alu_div_eq, arm, toList_getD_eq_readReg]
    split
    · rfl
    · exact retire_regValue_eq ..
  | mod =>
    simp only [alu_mod_eq, arm, toList_getD_eq_readReg]
    split
    · rfl
    · exact retire_regValue_eq ..
  | cmp =>
    simp only [alu_cmp_eq, arm, toList_getD_eq_readReg]
    split
    · exact retire_newFlag_eq ..
    · exact retire_noChange_eq ..
  | _ =>
    simp only [alu_add_eq, alu_sub_eq, alu_mul_eq, alu_and_eq, alu_or_eq, alu_xor_eq, alu_shl_eq, alu_shr_eq,
      retire_regValue_eq, arm, toList_getD_eq_readReg]

/-! ### Legal instructions -/

theorem eq_regByte_of_not_illegal {b : Byte} (h : ¬ 7 < b.toNat) : ∃ r : RegId, b = regByte r := by
  rcases regIdx_cases b with ⟨r, hr, _⟩ | ⟨hb, _⟩
  · exact ⟨r, hr⟩
  · exact absurd hb h

theorem exists_regByte_of_find?_singleton {ra : Byte} (h : ([ra].find? fun c => decide (7 < c.toNat)) = none) :
    ∃ a : RegId, ra = regByte a :=
  eq_regByte_of_not_illegal (by simpa using h)

theorem exists_regByte_of_find?_pair {ra rb : Byte} (h : ([ra, rb].find? fun c => decide (7 < c.toNat)) = none) :
    ∃ a b : RegId, ra = regByte a ∧ rb = regByte b := by
  simp only [List.find?_eq_none, List.mem_cons, decide_eq_true_eq] at h
  obtain ⟨a, ha⟩ := eq_regByte_of_not_illegal (h ra (.inl rfl))
  obtain ⟨b, hb⟩ := eq_regByte_of_not_illegal (h rb (.inr (.inl rfl)))
  exact ⟨a, b, ha, hb⟩

theorem runF1_eq_arm_of_legal {f : AluOp} {ra : Byte} (h : ([ra].find? fun c => decide (7 < c.toNat)) = none)
    (hformat : opFormat (.alu f) = .f1) (rb : Nat) (imm : Byte) (s : State) :
    runF1 f ra s = arm (.alu f) ra.toNat rb imm s := by
  obtain ⟨a, rfl⟩ := exists_regByte_of_find?_singleton h
  rw [runF1_eq_arm hformat a rb imm, toNat_regByte]

theorem runF2R_eq_arm_of_legal {f : AluOp} {ra rb : Byte} (h : ([ra, rb].find? fun c => decide (7 < c.toNat)) = none)
    (hformat : opFormat (.alu f) = .f2r) (s : State) : runF2R f ra rb s = arm (.alu f) ra.toNat rb.toNat rb s := by
  obtain ⟨a, b, rfl, rfl⟩ := exists_regByte_of_find?_pair h
  rw [runF2R_eq_arm hformat a b (regByte b), toNat_regByte, toNat_regByte]

/-- A legal instruction does what its arm of the listing says. -/
theorem exec_eq_arm_of_legal {i : Instr} (h : (i.regBytes.find? fun c => decide (7 < c.toNat)) = none) (s : State) :
    exec i s = .next
      (arm (instrOp i) ((operandBytes i).getD 0 0).toNat ((operandBytes i).getD 1 0).toNat ((operandBytes i).getD 1 0) s) := by
  cases i with
  | ldi ra imm =>
    obtain ⟨a, rfl⟩ := exists_regByte_of_find?_singleton h
    exact congrArg Host.Outcome.next ((runF2I_ldi_eq_arm a imm s).trans (by rw [← toNat_regByte]; rfl))
  | prn ra =>
    obtain ⟨a, rfl⟩ := exists_regByte_of_find?_singleton h
    exact (execPrn_eq_arm a 0 0 s).trans (by rw [← toNat_regByte]; rfl)
  | not | jmp | jeq | jne => exact congrArg Host.Outcome.next (runF1_eq_arm_of_legal h rfl 0 0 s)
  | hlt => rfl
  | _ => exact congrArg Host.Outcome.next (runF2R_eq_arm_of_legal h rfl s)

/-- Settles O14: a failed fetch is the listing's fault of a read or of the lookup, an illegal index its fault of validation, and a legal
instruction its arm. -/
theorem stepIsListing : Obligations.StepIsListing := by
  intro s hrun
  cases hf : fetch s with
  | error r => rw [step_of_fetch_error hrun hf, listing_of_fetch_error hf]
  | ok i =>
    rw [step_of_fetch_ok hrun hf]
    cases hbad : i.regBytes.find? fun c => decide (7 < c.toNat) with
    | some b => rw [registerIndexFaults i s b hbad, listing_of_illegal hf hbad]
    | none => rw [exec_eq_arm_of_legal hbad, listing_of_legal hf hbad]

end Sys2Proof.Machine

/-! The first fault of R82's list, by what the fetch answers (40_execution_cycle.md R82). -/

namespace Sys2Proof.Machine

open Sys2Proof.Spec

/-! ### The cells at the pc by MemRead -/

theorem cellAt_eq_some_of_memRead {s : State} {k : Nat} {b : Byte} (h : memRead s.mem (s.pc.toNat + k) = .ok b) :
    cellAt s k = some b := by
  rcases memRead_cases s.mem (s.pc.toNat + k) with ⟨_, hr⟩ | ⟨_, _, hr⟩ | ⟨hk, v, hv, hr⟩ <;> cases hr.symm.trans h
  rw [cellAt, if_pos (Nat.le_of_lt_succ hk), hv]

/-- A read at the pc fails only for an unset cell: the pc itself is in range. -/
theorem memRead_pc_eq_error {s : State} {c : Cause} (h : memRead s.mem s.pc.toNat = .error c) :
    cellAt s 0 = none ∧ c = ⟨.uninitializedMemoryRead, s.pc.toNat⟩ := by
  rcases memRead_cases s.mem s.pc.toNat with ⟨hk, _⟩ | ⟨hk, hv, hr⟩ | ⟨_, _, _, hr⟩
  · exact absurd s.pc.isLt (Nat.not_lt.mpr hk)
  · cases hr.symm.trans h
    exact ⟨(if_pos (Nat.le_of_lt_succ hk)).trans hv, rfl⟩
  · cases hr.symm.trans h

/-! ### The items of the list -/

theorem findSome?_id_cons {α : Type} (o : Option α) (l : List (Option α)) :
    (o :: l).findSome? id = o.or (l.findSome? id) := by
  cases o <;> rfl

/-- The record of a fault raised by the instruction of operation `op` (R166). -/
def recordOf (op : Op) (k : FaultKind) (info : Nat) (s : State) : FaultRecord := ⟨k, s.pc, some (opcodeByte op), info⟩

section
variable {s : State} {op : Op} (h0 : memRead s.mem s.pc.toNat = .ok (opcodeByte op))
include h0

theorem cellAt_zero_of_opcode : cellAt s 0 = some (opcodeByte op) := cellAt_eq_some_of_memRead h0

theorem opAt_of_opcode : opAt s = some op := by
  rw [opAt, cellAt_zero_of_opcode h0, Option.bind_some, lookupOp_opcodeByte]

theorem operandFault_of_error {k : Nat} {c : Cause} (hk : k ≤ operandCount op)
    (h : memRead s.mem (s.pc.toNat + k) = .error c) : operandFault s k = some (recordOf op c.kind c.info s) := by
  simp only [operandFault, opAt_of_opcode h0, cellAt_zero_of_opcode h0, Option.any_some, hk, decide_true, if_true]
  rcases memRead_cases s.mem (s.pc.toNat + k) with ⟨hge, hr⟩ | ⟨hlt, hv, hr⟩ | ⟨_, _, _, hr⟩ <;> cases hr.symm.trans h
  · rw [if_pos (show 255 < s.pc.toNat + k from hge)]
    rfl
  · have hle : s.pc.toNat + k ≤ 255 := Nat.le_of_lt_succ hlt
    rw [if_neg (Nat.not_lt.mpr hle), cellAt, if_pos hle, if_pos hv]
    rfl

theorem operandFault_eq_none {k : Nat} (h : k ≤ operandCount op → ∃ b, memRead s.mem (s.pc.toNat + k) = .ok b) :
    operandFault s k = none := by
  simp only [operandFault, opAt_of_opcode h0, Option.any_some]
  by_cases hk : k ≤ operandCount op
  · obtain ⟨b, hb⟩ := h hk
    have hcell := cellAt_eq_some_of_memRead hb
    have hle : s.pc.toNat + k ≤ 255 := by
      by_contra hgt
      rw [cellAt, if_neg hgt] at hcell
      cases hcell
    simp [hcell, Nat.not_lt.mpr hle]
  · simp [hk]

theorem indexFault_of_cell {k : Nat} {b : Byte} (hk : k ≤ operandCount op ∧ (k = 1 ∨ opFormat op = .f2r))
    (hb : cellAt s k = some b) :
    indexFault s k = if 7 < b.toNat then some (recordOf op .registerIndexOutOfRange b.toNat s) else none := by
  simp only [indexFault, opAt_of_opcode h0, cellAt_zero_of_opcode h0, hb, hk, true_and]
  rfl

theorem indexFault_eq_none {k : Nat} (hk : ¬ (k ≤ operandCount op ∧ (k = 1 ∨ opFormat op = .f2r))) : indexFault s k = none := by
  rw [indexFault, opAt_of_opcode h0]
  cases cellAt s k with
  | none => rfl
  | some b => exact if_neg fun h => hk h.1

/-- A supported opcode leaves items 3 to 7 of R82's list. -/
theorem firstFault_of_opcode : (faultList s).findSome? id =
    ((operandFault s 1).or (operandFault s 2)).or (((indexFault s 1).or (indexFault s 2)).or (divisorFault s)) := by
  simp [faultList, cellAt_zero_of_opcode h0, findSome?_id_cons, Option.or_assoc]

end

/-! ### The items of a fetched instruction -/

/-- The operand bytes of an instruction by its format, and which of them name registers (R51, R54, R66). -/
inductive OperandForm (i : Instr) : Prop where
  | f0 (hformat : opFormat (instrOp i) = .f0) (hreg : i.regBytes = [])
  | f1 (ra : Byte) (hformat : opFormat (instrOp i) = .f1) (hop : operandBytes i = [ra]) (hreg : i.regBytes = [ra])
  | f2i (ra imm : Byte) (hformat : opFormat (instrOp i) = .f2i) (hop : operandBytes i = [ra, imm]) (hreg : i.regBytes = [ra])
  | f2r (ra rb : Byte) (hformat : opFormat (instrOp i) = .f2r) (hop : operandBytes i = [ra, rb]) (hreg : i.regBytes = [ra, rb])

theorem operandForm (i : Instr) : OperandForm i := by
  cases i with
  | hlt => exact .f0 rfl rfl
  | prn | not | jmp | jeq | jne => exact .f1 _ rfl rfl rfl
  | ldi ra imm => exact .f2i ra imm rfl rfl rfl
  | _ => exact .f2r _ _ rfl rfl rfl

section
variable {s : State} {i : Instr} (hf : fetch s = .ok i)
include hf

theorem cellAt_of_fetch {k : Nat} {b : Byte} (hb : (operandBytes i)[k]? = some b) : cellAt s (k + 1) = some b :=
  cellAt_eq_some_of_memRead (memRead_of_fetch hf (k := k + 1) hb)

theorem operandFault_of_fetch (k : Nat) : operandFault s (k + 1) = none := by
  refine operandFault_eq_none (memRead_opcode_of_fetch hf) fun hk => ?_
  rw [← operandBytes_length] at hk
  exact ⟨_, memRead_of_fetch hf (k := k + 1) (List.getElem?_eq_getElem hk)⟩

theorem indexFault_of_operand {k : Nat} {b : Byte} (hb : (operandBytes i)[k]? = some b)
    (hk : k = 0 ∨ opFormat (instrOp i) = .f2r) : indexFault s (k + 1) =
      if 7 < b.toNat then some (recordOf (instrOp i) .registerIndexOutOfRange b.toNat s) else none := by
  have howns : k + 1 ≤ operandCount (instrOp i) := operandBytes_length i ▸ (List.getElem?_eq_some_iff.mp hb).1
  exact indexFault_of_cell (memRead_opcode_of_fetch hf) ⟨howns, hk.imp_left (congrArg (· + 1))⟩ (cellAt_of_fetch hf hb)

/-- Items 5 and 6: the first illegal register byte. -/
theorem indexFaults_of_fetch : (indexFault s 1).or (indexFault s 2) =
    (i.regBytes.find? fun b => decide (7 < b.toNat)).map
      fun b => recordOf (instrOp i) .registerIndexOutOfRange b.toNat s := by
  have h0 := memRead_opcode_of_fetch hf
  cases operandForm i with
  | f0 hformat hreg =>
    rw [indexFault_eq_none h0 (by simp [operandCount, hformat]), indexFault_eq_none h0 (by simp [operandCount, hformat]), hreg]
    rfl
  | f1 ra hformat hop hreg =>
    rw [indexFault_of_operand hf (k := 0) (b := ra) (by rw [hop]; rfl) (.inl rfl),
      indexFault_eq_none h0 (by simp [operandCount, hformat]), hreg]
    by_cases ha : 7 < ra.toNat <;> simp [ha]
  | f2i ra imm hformat hop hreg =>
    rw [indexFault_of_operand hf (k := 0) (b := ra) (by rw [hop]; rfl) (.inl rfl),
      indexFault_eq_none h0 (by simp [hformat]), hreg]
    by_cases ha : 7 < ra.toNat <;> simp [ha]
  | f2r ra rb hformat hop hreg =>
    rw [indexFault_of_operand hf (k := 0) (b := ra) (by rw [hop]; rfl) (.inl rfl),
      indexFault_of_operand hf (k := 1) (b := rb) (by rw [hop]; rfl) (.inr hformat), hreg]
    by_cases ha : 7 < ra.toNat <;> by_cases hb : 7 < rb.toNat <;> simp [ha, hb]

theorem firstFault_of_fetch : (faultList s).findSome? id =
    ((i.regBytes.find? fun b => decide (7 < b.toNat)).map
      fun b => recordOf (instrOp i) .registerIndexOutOfRange b.toNat s).or (divisorFault s) := by
  rw [firstFault_of_opcode (memRead_opcode_of_fetch hf), operandFault_of_fetch hf 0, operandFault_of_fetch hf 1,
    indexFaults_of_fetch hf]
  rfl

end

/-! ### A zero divisor -/

/-- The divisor of DIV and MOD is 0, by the listing's register number. -/
def ZeroDivisor (o : Op) (rb : Nat) (s : State) : Prop :=
  (o = .alu .div ∨ o = .alu .mod) ∧ (s.x.toList.getD rb 0).toNat = 0

theorem arm_of_zeroDivisor {o : Op} {rb : Nat} {s : State} (h : ZeroDivisor o rb s) (ra : Nat) (imm : Byte) :
    arm o ra rb imm s = faulted (some (opcodeByte o)) .divisionByZero rb s := by
  obtain ⟨rfl | rfl, hz⟩ := h
  · exact if_pos hz
  · exact if_pos hz

theorem operandBytes_eq_pair_of_divides {i : Instr} (ho : instrOp i = .alu .div ∨ instrOp i = .alu .mod) :
    ∃ ra rb, operandBytes i = [ra, rb] ∧ i.regBytes = [ra, rb] := by
  have hf2r : opFormat (instrOp i) = .f2r := by rcases ho with h | h <;> rw [h] <;> rfl
  cases operandForm i with
  | f0 hformat => cases hformat.symm.trans hf2r
  | f1 _ hformat => cases hformat.symm.trans hf2r
  | f2i _ _ hformat => cases hformat.symm.trans hf2r
  | f2r ra rb _ hop hreg => exact ⟨ra, rb, hop, hreg⟩

section
variable {s : State} {i : Instr} (hf : fetch s = .ok i)
include hf

/-- Item 7 looks at the divisor of DIV and MOD. -/
theorem divisorFault_of_fetch {b : Byte} (ho : instrOp i = .alu .div ∨ instrOp i = .alu .mod)
    (hb : (operandBytes i)[1]? = some b) : divisorFault s =
      if s.x.toList[b.toNat]? = some 0 then some (recordOf (instrOp i) .divisionByZero b.toNat s) else none := by
  have h0 := memRead_opcode_of_fetch hf
  simp only [divisorFault, cellAt_of_fetch hf hb, opAt_of_opcode h0, cellAt_zero_of_opcode h0, Option.some.injEq, ho, true_and]
  rfl

theorem divisorFault_of_zeroDivisor (hlegal : (i.regBytes.find? fun b => decide (7 < b.toNat)) = none)
    (hz : ZeroDivisor (instrOp i) ((operandBytes i).getD 1 0).toNat s) :
    divisorFault s = some (recordOf (instrOp i) .divisionByZero ((operandBytes i).getD 1 0).toNat s) := by
  obtain ⟨ho, hzero⟩ := hz
  obtain ⟨ra, rb, hop, hreg⟩ := operandBytes_eq_pair_of_divides ho
  rw [hreg] at hlegal
  obtain ⟨a, b, rfl, rfl⟩ := exists_regByte_of_find?_pair hlegal
  simp only [hop, List.getD_cons_succ, List.getD_cons_zero, toNat_regByte, toList_getD_eq_readReg] at hzero ⊢
  have hreg0 : s.x.toList[(regByte b).toNat]? = some 0 := by
    rw [toNat_regByte, toList_getElem?_eq_readReg]
    exact congrArg some (BitVec.eq_of_toNat_eq hzero)
  rw [divisorFault_of_fetch hf ho (b := regByte b) (by rw [hop]; rfl), if_pos hreg0, toNat_regByte]

theorem divisorFault_eq_none (hnz : ¬ ZeroDivisor (instrOp i) ((operandBytes i).getD 1 0).toNat s) : divisorFault s = none := by
  by_cases ho : instrOp i = .alu .div ∨ instrOp i = .alu .mod
  · obtain ⟨ra, rb, hop, hreg⟩ := operandBytes_eq_pair_of_divides ho
    rw [divisorFault_of_fetch hf ho (b := rb) (by rw [hop]; rfl)]
    refine if_neg fun hzero => hnz ⟨ho, ?_⟩
    rw [hop, List.getD_cons_succ, List.getD_cons_zero, List.getD_eq_getElem?_getD, hzero]
    rfl
  · rw [divisorFault, opAt_of_opcode (memRead_opcode_of_fetch hf)]
    cases cellAt s 2 with
    | none => rfl
    | some b => exact if_neg (by simpa using fun h => absurd h ho)

end

/-! ### The listing's arms by what they do to the pc -/

/-- What an arm does that is not stopped by a zero divisor: it halts, sets the pc, or advances after the effect it makes at address 0, where there
is room for every instruction. -/
inductive ArmForm (o : Op) (ra rb : Nat) (imm : Byte) (s : State) : Prop where
  | halts (harm : arm o ra rb imm s = enterHalted s)
  | jumps (target : Byte) (harm : arm o ra rb imm s = writePc target s)
  | advances (hrun : (arm o ra rb imm (writePc 0 s)).run = s.run)
      (harm : arm o ra rb imm s = advanced o (operandCount o) (writePc s.pc (arm o ra rb imm (writePc 0 s))))

/-- At address 0 every instruction has room to advance. -/
theorem advanced_writePc_zero (o : Op) (t : State) :
    advanced o (operandCount o) (writePc 0 t) = writePc (BitVec.ofNat 8 (0 + 1 + operandCount o)) t := by
  have hroom : 0 + 1 + operandCount o ≤ 255 := by have := operandCount_le o; omega
  exact if_pos hroom

theorem armForm_of_effect {o : Op} {ra rb : Nat} {imm : Byte} {s : State} (t : State) (hrun : t.run = s.run)
    (harm : ∀ p, arm o ra rb imm (writePc p s) = advanced o (operandCount o) (writePc p t)) : ArmForm o ra rb imm s := by
  have h0 := (harm 0).trans (advanced_writePc_zero o t)
  exact .advances (h0 ▸ hrun) (h0 ▸ harm s.pc)

theorem armForm {o : Op} {rb : Nat} {s : State} (h : ¬ ZeroDivisor o rb s) (ra : Nat) (imm : Byte) :
    ArmForm o ra rb imm s := by
  cases o with
  | hlt => exact .halts rfl
  | prn => exact .advances rfl rfl
  | alu f =>
    cases f with
    | jmp => exact .jumps _ rfl
    | jeq =>
      by_cases he : s.e = true
      · exact .jumps _ (if_pos he)
      · exact armForm_of_effect s rfl fun _ => if_neg he
    | jne =>
      by_cases he : s.e = false
      · exact .jumps _ (if_pos he)
      · exact armForm_of_effect s rfl fun _ => if_neg he
    | cmp =>
      by_cases heq : (s.x.toList.getD ra 0).toNat = (s.x.toList.getD rb 0).toNat
      · exact armForm_of_effect (writeE true s) rfl fun _ => congrArg (advanced _ _) (if_pos heq)
      · exact armForm_of_effect s rfl fun _ => congrArg (advanced _ _) (if_neg heq)
    | div =>
      exact armForm_of_effect
        { s with x := s.x.setIfInBounds ra (BitVec.ofNat 8 ((s.x.toList.getD ra 0).toNat / (s.x.toList.getD rb 0).toNat)) }
        rfl fun _ => if_neg fun hz => h ⟨.inl rfl, hz⟩
    | mod =>
      exact armForm_of_effect
        { s with x := s.x.setIfInBounds ra (BitVec.ofNat 8 ((s.x.toList.getD ra 0).toNat % (s.x.toList.getD rb 0).toNat)) }
        rfl fun _ => if_neg fun hz => h ⟨.inr rfl, hz⟩
    | _ => exact .advances rfl rfl

theorem advanced_of_run_faulted {op : Op} {n : Nat} {s : State} (hrun : s.run = .running)
    (h : (advanced op n s).run = .faulted) :
    advanced op n s = faulted (some (opcodeByte op)) .addressOutOfRange (s.pc.toNat + 1 + n) s := by
  by_cases hroom : s.pc.toNat + 1 + n ≤ 255
  · rw [advanced, if_pos hroom] at h
    cases hrun.symm.trans h
  · exact if_neg hroom

/-- An arm without a zero divisor faults in its advance alone, after the effect it makes at address 0. -/
theorem arm_of_run_faulted {o : Op} {ra rb : Nat} {imm : Byte} {s : State} (hrun : s.run = .running)
    (hz : ¬ ZeroDivisor o rb s) (h : (arm o ra rb imm s).run = .faulted) :
    (arm o ra rb imm (writePc 0 s)).run = .running ∧
      arm o ra rb imm s = faulted (some (opcodeByte o)) .addressOutOfRange (s.pc.toNat + 1 + operandCount o)
        (writePc s.pc (arm o ra rb imm (writePc 0 s))) := by
  cases armForm hz ra imm with
  | halts harm => rw [harm] at h; cases h
  | jumps target harm => rw [harm] at h; cases hrun.symm.trans h
  | advances hu harm =>
    have hrun' : (writePc s.pc (arm o ra rb imm (writePc 0 s))).run = .running := hu.trans hrun
    exact ⟨hrun', harm.trans (advanced_of_run_faulted hrun' (harm ▸ h))⟩

/-! ### The first fault -/

/-- The first item of the list is the fault that ends a failed fetch. -/
theorem firstFault_of_fetch_error {s : State} {r : DecodeReject Cause} (hf : fetch s = .error r) :
    ∃ rec, (faultList s).findSome? id = some rec ∧ fetchFault r s = { s with run := .faulted, fault := some rec } := by
  cases fetchForm s with
  | opcodeUnread c h0 hf' =>
    cases hf.symm.trans hf'
    obtain ⟨hcell, rfl⟩ := memRead_pc_eq_error h0
    refine ⟨_, ?_, rfl⟩
    simp [faultList, hcell]
  | unsupported o h0 hlook hf' =>
    cases hf.symm.trans hf'
    have hcell : cellAt s 0 = some o := cellAt_eq_some_of_memRead h0
    refine ⟨_, ?_, rfl⟩
    simp [faultList, hcell, hlook]
  | firstUnread op c h0 howns h1 hf' =>
    cases hf.symm.trans hf'
    refine ⟨_, ?_, rfl⟩
    rw [firstFault_of_opcode h0, operandFault_of_error h0 howns h1]
    rfl
  | secondUnread op b1 c h0 howns h1 h2 hf' =>
    cases hf.symm.trans hf'
    have hfirst := operandFault_eq_none h0 fun _ => ⟨b1, h1⟩
    refine ⟨_, ?_, rfl⟩
    rw [firstFault_of_opcode h0, hfirst, operandFault_of_error h0 howns.ge h2]
    rfl
  | ok i hf' => cases hf.symm.trans hf'

/-- Settles O15: of the fetch's faults, an illegal index and a zero divisor the list's first item is the one the step raises; an instruction that
meets none of them can only fault where it advances. -/
theorem firstFaultWins : Obligations.FirstFaultWins := by
  intro s hrun
  cases hf : fetch s with
  | error r =>
    obtain ⟨rec, hfirst, hfault⟩ := firstFault_of_fetch_error hf
    rw [hfirst]
    exact (step_of_fetch_error hrun hf).trans (congrArg _ hfault)
  | ok i =>
    have hstep := step_of_fetch_ok hrun hf
    rw [firstFault_of_fetch hf]
    cases hbad : i.regBytes.find? fun b => decide (7 < b.toNat) with
    | some b => exact hstep.trans (registerIndexFaults i s b hbad)
    | none =>
      have hexec := exec_eq_arm_of_legal hbad
      by_cases hz : ZeroDivisor (instrOp i) ((operandBytes i).getD 1 0).toNat s
      · rw [divisorFault_of_zeroDivisor hf hbad hz]
        exact hstep.trans ((hexec s).trans (congrArg _ (arm_of_zeroDivisor hz _ _)))
      · rw [divisorFault_eq_none hf hz]
        refine ⟨i, _, rfl, hstep.trans (hexec s), fun hfaulted => ?_⟩
        obtain ⟨hu, ht⟩ := arm_of_run_faulted hrun hz hfaulted
        refine ⟨_, hexec (writePc 0 s), hu, ?_⟩
        rw [ht, cellAt_zero_of_opcode (memRead_opcode_of_fetch hf), instrLength, ← Nat.add_assoc]
        rfl

end Sys2Proof.Machine

/-! LDI and PRN (41_data_move.md R90, R91). -/

namespace Sys2Proof.Machine

open Sys2Proof.Spec

/-- A register value is retired as the statements write it out: the one register changed, then R76's advance. -/
theorem retire_regValue_eq_advanced_withReg (f : AluOp) (n : Nat) (a : RegId) (rb : Nat) (v : Byte) (s : State) :
    retire f n a rb (.regValue v) s = advanced (.alu f) n (withReg a v s) :=
  advance_eq_advanced (.alu f) n (writeReg a v s)

theorem exec_ldi_regByte (a : RegId) (imm : Byte) (s : State) :
    exec (.ldi (regByte a) imm) s = .next (advanced (.alu .ldi) 2 (withReg a imm s)) :=
  calc exec (.ldi (regByte a) imm) s
    _ = .next (runF2I .ldi (regByte a) imm s) := rfl
    _ = .next (retire .ldi 2 a 0 (.regValue imm) s) := congrArg _ (runF2I_regByte .ldi a imm s)
    _ = .next (advanced (.alu .ldi) 2 (withReg a imm s)) := congrArg _ (retire_regValue_eq_advanced_withReg ..)

theorem exec_prn_regByte (a : RegId) (s : State) :
    exec (.prn (regByte a)) s = .next (advanced .prn 1 { s with out := s.out ++ [readReg a s] }) :=
  calc exec (.prn (regByte a)) s
    _ = execPrn (regByte a) s := rfl
    _ = .next (advance .prn 1 (emit (readReg a s) s)) := execPrn_regByte a s
    _ = .next (advanced .prn 1 { s with out := s.out ++ [readReg a s] }) := congrArg _ (advance_eq_advanced ..)

/-- Settles O19: the ALU's result for LDI is the immediate, which is retired to the register. -/
theorem ldiResult : Obligations.LdiResult :=
  ⟨fun _ _ => rfl, fun s a imm => exec_ldi_regByte a imm s⟩

/-- Settles O20: PRN emits the register and advances. -/
theorem prnResult : Obligations.PrnResult :=
  ⟨fun _ => rfl, fun s a => exec_prn_regByte a s⟩

end Sys2Proof.Machine

/-! ADD, SUB, MUL, DIV and MOD (42_arithmetic.md R100 to R108). -/

namespace Sys2Proof.Machine

open Sys2Proof.Spec

/-! ### What a legal F2R instruction makes of the ALU's answer -/

theorem runF2R_of_alu_eq_regValue {f : AluOp} {a b : RegId} {v : Byte} {s : State}
    (h : alu f (readReg a s) (readReg b s) s.e = .regValue v) :
    runF2R f (regByte a) (regByte b) s = advanced (.alu f) 2 (withReg a v s) := by
  rw [runF2R_regByte, h, retire_regValue_eq_advanced_withReg]

/-- DIV and MOD by their divisor: the fault of R160 with the index `rb`, or the register's new value. -/
theorem runF2R_of_alu_eq_ite_divisionByZero {f : AluOp} {a b : RegId} {v : Byte} {s : State}
    (h : alu f (readReg a s) (readReg b s) s.e = if (readReg b s).toNat = 0 then .divisionByZero else .regValue v) :
    runF2R f (regByte a) (regByte b) s =
      if (readReg b s).toNat = 0 then faulted (some (opcodeByte (.alu f))) .divisionByZero b.val s
      else advanced (.alu f) 2 (withReg a v s) := by
  split
  next hzero =>
    rw [runF2R_regByte, h, if_pos hzero]
    rfl
  next hnonzero => exact runF2R_of_alu_eq_regValue (h.trans (if_neg hnonzero))

/-! ### The five results -/

/-- R101's wrap written out: 256 is added exactly where the subtraction borrows. -/
theorem alu_sub_eq_ite_borrow (a b : Byte) (e : Bool) :
    alu .sub a b e = .regValue
      (if b.toNat ≤ a.toNat then BitVec.ofNat 8 (a.toNat - b.toNat) else BitVec.ofNat 8 (a.toNat + 256 - b.toNat)) := by
  refine congrArg AluResult.regValue ?_
  split
  · exact trunc8_eq_ofNat (by omega)
  · exact trunc8_eq_ofNat (by have := b.isLt; omega)

section
variable (a b : RegId) (s : State)

theorem exec_add_regByte :
    exec (.add (regByte a) (regByte b)) s =
      .next (advanced (.alu .add) 2 (withReg a (BitVec.ofNat 8 (((readReg a s).toNat + (readReg b s).toNat) % 256)) s)) :=
  congrArg Host.Outcome.next (runF2R_of_alu_eq_regValue (alu_add_eq ..))

theorem exec_sub_regByte :
    exec (.sub (regByte a) (regByte b)) s =
      .next (advanced (.alu .sub) 2
        (withReg a
          (if (readReg b s).toNat ≤ (readReg a s).toNat then BitVec.ofNat 8 ((readReg a s).toNat - (readReg b s).toNat)
            else BitVec.ofNat 8 ((readReg a s).toNat + 256 - (readReg b s).toNat)) s)) :=
  congrArg Host.Outcome.next (runF2R_of_alu_eq_regValue (alu_sub_eq_ite_borrow ..))

theorem exec_mul_regByte :
    exec (.mul (regByte a) (regByte b)) s =
      .next (advanced (.alu .mul) 2 (withReg a (BitVec.ofNat 8 ((readReg a s).toNat * (readReg b s).toNat % 256)) s)) :=
  congrArg Host.Outcome.next (runF2R_of_alu_eq_regValue (alu_mul_eq ..))

theorem exec_div_regByte :
    exec (.div (regByte a) (regByte b)) s =
      .next (if (readReg b s).toNat = 0 then faulted (some (opcodeByte (.alu .div))) .divisionByZero b.val s
        else advanced (.alu .div) 2 (withReg a (BitVec.ofNat 8 ((readReg a s).toNat / (readReg b s).toNat)) s)) :=
  congrArg Host.Outcome.next (runF2R_of_alu_eq_ite_divisionByZero (alu_div_eq ..))

theorem exec_mod_regByte :
    exec (.mod (regByte a) (regByte b)) s =
      .next (if (readReg b s).toNat = 0 then faulted (some (opcodeByte (.alu .mod))) .divisionByZero b.val s
        else advanced (.alu .mod) 2 (withReg a (BitVec.ofNat 8 ((readReg a s).toNat % (readReg b s).toNat)) s)) :=
  congrArg Host.Outcome.next (runF2R_of_alu_eq_ite_divisionByZero (alu_mod_eq ..))

end

/-- Settles O21: the ALU's sum is retired to the register. -/
theorem addResult : Obligations.AddResult :=
  ⟨fun _ _ => rfl, fun s a b => exec_add_regByte a b s⟩

/-- Settles O22: the ALU's difference, split by whether it borrows, is retired to the register. -/
theorem subResult : Obligations.SubResult :=
  ⟨fun _ _ => rfl, fun s a b => exec_sub_regByte a b s⟩

/-- Settles O23: the ALU's product is retired to the register. -/
theorem mulResult : Obligations.MulResult :=
  ⟨fun _ _ => rfl, fun s a b => exec_mul_regByte a b s⟩

/-- Settles O24: a zero divisor is the ALU's error, any other divisor gives the quotient. -/
theorem divResult : Obligations.DivResult :=
  ⟨fun _ _ => rfl, fun s a b => exec_div_regByte a b s⟩

/-- Settles O25: a zero divisor is the ALU's error, any other divisor gives the remainder. -/
theorem modResult : Obligations.ModResult :=
  ⟨fun _ _ => rfl, fun s a b => exec_mod_regByte a b s⟩

/-! ### Quotient and remainder together (R106) -/

/-- The advance keeps the register that was written, at the advance fault too (R76). -/
theorem readReg_advanced_withReg_same (op : Op) (n : Nat) (a : RegId) (v : Byte) (s : State) :
    readReg a (advanced op n (withReg a v s)) = v := by
  have hx : (advance op n (writeReg a v s)).x = (writeReg a v s).x := advance_x ..
  calc readReg a (advanced op n (withReg a v s))
    _ = readReg a (advance op n (writeReg a v s)) := congrArg _ (advance_eq_advanced op n (writeReg a v s)).symm
    _ = readReg a (writeReg a v s) := by rw [readReg, readReg, hx]
    _ = v := readReg_writeReg_same a v s

theorem toNat_ofNat_div (a b : Byte) : (BitVec.ofNat 8 (a.toNat / b.toNat)).toNat = a.toNat / b.toNat :=
  Nat.mod_eq_of_lt ((Nat.div_le_self ..).trans_lt a.isLt)

theorem toNat_ofNat_mod (a b : Byte) : (BitVec.ofNat 8 (a.toNat % b.toNat)).toNat = a.toNat % b.toNat :=
  Nat.mod_eq_of_lt ((Nat.mod_le ..).trans_lt a.isLt)

theorem toNat_eq_zero_iff (b : Byte) : b.toNat = 0 ↔ b = 0 :=
  BitVec.toNat_inj (y := 0)

/-- Settles O26: the registers the two instructions leave hold Euclid's quotient and remainder, and a zero divisor is the error of both. -/
theorem divModRecombine : Obligations.DivModRecombine := by
  intro s t u a b hdiv hmod
  rw [exec_div_regByte] at hdiv
  rw [exec_mod_regByte] at hmod
  obtain rfl := Host.Outcome.next.inj hdiv
  obtain rfl := Host.Outcome.next.inj hmod
  refine ⟨fun hb => ?_, fun hb => ?_⟩
  · have hne : (readReg b s).toNat ≠ 0 := mt (toNat_eq_zero_iff _).mp hb
    simp only [if_neg hne, readReg_advanced_withReg_same, toNat_ofNat_div, toNat_ofNat_mod]
    exact ⟨Nat.div_add_mod' .., Nat.mod_lt _ (Nat.pos_of_ne_zero hne)⟩
  · have hzero : (readReg b s).toNat = 0 := (toNat_eq_zero_iff _).mpr hb
    exact ⟨if_pos hzero, if_pos hzero⟩

/-! ### One register as both operands (R108) -/

theorem ofNat_mod_256 (n : Nat) : BitVec.ofNat 8 (n % 256) = BitVec.ofNat 8 n :=
  BitVec.eq_of_toNat_eq (Nat.mod_mod n 256)

section
variable (a : RegId) (s : State)

theorem exec_add_same :
    exec (.add (regByte a) (regByte a)) s =
      .next (advanced (.alu .add) 2 (withReg a (BitVec.ofNat 8 (2 * (readReg a s).toNat)) s)) := by
  rw [exec_add_regByte, ofNat_mod_256, Nat.two_mul]

theorem exec_sub_same :
    exec (.sub (regByte a) (regByte a)) s = .next (advanced (.alu .sub) 2 (withReg a 0 s)) := by
  rw [exec_sub_regByte, if_pos le_rfl, Nat.sub_self, BitVec.ofNat_eq_ofNat]

theorem exec_mul_same :
    exec (.mul (regByte a) (regByte a)) s =
      .next (advanced (.alu .mul) 2 (withReg a (BitVec.ofNat 8 ((readReg a s).toNat ^ 2)) s)) := by
  rw [exec_mul_regByte, ofNat_mod_256, Nat.pow_two]

theorem exec_div_same :
    exec (.div (regByte a) (regByte a)) s =
      .next (if readReg a s = 0 then faulted (some (opcodeByte (.alu .div))) .divisionByZero a.val s
        else advanced (.alu .div) 2 (withReg a 1 s)) := by
  simp only [exec_div_regByte, toNat_eq_zero_iff]
  split
  · rfl
  next hne => rw [Nat.div_self (Nat.pos_of_ne_zero (mt (toNat_eq_zero_iff _).mp hne)), BitVec.ofNat_eq_ofNat]

theorem exec_mod_same :
    exec (.mod (regByte a) (regByte a)) s =
      .next (if readReg a s = 0 then faulted (some (opcodeByte (.alu .mod))) .divisionByZero a.val s
        else advanced (.alu .mod) 2 (withReg a 0 s)) := by
  simp only [exec_mod_regByte, Nat.mod_self, toNat_eq_zero_iff, BitVec.ofNat_eq_ofNat]

end

/-- Settles O27: the five results at `rb = ra`. -/
theorem sameRegisterTwice : Obligations.SameRegisterTwice := fun s a =>
  ⟨exec_add_same a s, exec_sub_same a s, exec_mul_same a s, exec_div_same a s, exec_mod_same a s⟩

end Sys2Proof.Machine

/-! AND, OR, XOR, NOT, SHL and SHR (43_bitwise.md R120 to R125). -/

namespace Sys2Proof.Machine

open Sys2Proof.Spec

/-! ### Bits and values of the results -/

theorem getLsbD_xor_eq_decide_ne (x y : Byte) (k : Nat) :
    (x ^^^ y).getLsbD k = decide (x.getLsbD k ≠ y.getLsbD k) := by
  rw [BitVec.getLsbD_xor, Bool.eq_iff_iff, Bool.xor_iff_ne, decide_eq_true_iff]

/-- Within the byte no bit is out of range, so the complement's bit is the inverted bit. -/
theorem getLsbD_not_of_fin (x : Byte) (k : Fin 8) : (~~~x).getLsbD k = !x.getLsbD k := by
  rw [BitVec.getLsbD_not, decide_eq_true k.isLt, Bool.true_and]

theorem toNat_shiftLeft_eq_mul_pow_mod (x : Byte) (n : Nat) : (x <<< n).toNat = x.toNat * 2 ^ n % 256 := by
  rw [BitVec.toNat_shiftLeft, Nat.shiftLeft_eq]

theorem toNat_ushiftRight_eq_div_pow (x : Byte) (n : Nat) : (x >>> n).toNat = x.toNat / 2 ^ n := by
  rw [BitVec.toNat_ushiftRight, Nat.shiftRight_eq_div_pow]

/-- R124 bit by bit: zeros enter below the amount. -/
theorem getLsbD_shiftLeft_of_fin (x : Byte) (n : Nat) (k : Fin 8) :
    (x <<< n).getLsbD k = (decide (n ≤ k.val) && x.getLsbD (k.val - n)) := by
  simp only [BitVec.getLsbD_shiftLeft, k.isLt, decide_true, Bool.true_and, ← decide_not, Nat.not_lt]

/-- R125 bit by bit: a bit that would come from above bit 7 is a zero. -/
theorem getLsbD_ushiftRight_eq (x : Byte) (n k : Nat) :
    (x >>> n).getLsbD k = (decide (k + n ≤ 7) && x.getLsbD (k + n)) := by
  rw [BitVec.getLsbD_ushiftRight, Nat.add_comm]
  by_cases h : k + n ≤ 7
  · rw [decide_eq_true h, Bool.true_and]
  · rw [decide_eq_false h, Bool.false_and, BitVec.getLsbD_of_ge _ _ (Nat.not_le.mp h)]

/-! ### The shifts of the ALU -/

/-- Amounts of 8 and more are no case of their own: the shift of the byte by them is 0. -/
theorem alu_shl_eq_shiftLeft (a b : Byte) (e : Bool) : alu .shl a b e = .regValue (a <<< b.toNat) := by
  rw [alu_shl_eq, ← toNat_shiftLeft_eq_mul_pow_mod, ofNat_toNat]

theorem alu_shr_eq_ushiftRight (a b : Byte) (e : Bool) : alu .shr a b e = .regValue (a >>> b.toNat) := by
  rw [alu_shr_eq, ← toNat_ushiftRight_eq_div_pow, ofNat_toNat]

/-! ### The six results -/

theorem runF1_of_alu_eq_regValue {f : AluOp} {a : RegId} {v : Byte} {s : State}
    (h : alu f (readReg a s) 0 s.e = .regValue v) :
    runF1 f (regByte a) s = advanced (.alu f) 1 (withReg a v s) := by
  rw [runF1_regByte, h, retire_regValue_eq_advanced_withReg]

section
variable (a b : RegId) (s : State)

theorem exec_and_regByte :
    exec (.and (regByte a) (regByte b)) s =
      .next (advanced (.alu .and) 2 (withReg a (readReg a s &&& readReg b s) s)) :=
  congrArg Host.Outcome.next (runF2R_of_alu_eq_regValue rfl)

theorem exec_or_regByte :
    exec (.or (regByte a) (regByte b)) s =
      .next (advanced (.alu .or) 2 (withReg a (readReg a s ||| readReg b s) s)) :=
  congrArg Host.Outcome.next (runF2R_of_alu_eq_regValue rfl)

theorem exec_xor_regByte :
    exec (.xor (regByte a) (regByte b)) s =
      .next (advanced (.alu .xor) 2 (withReg a (readReg a s ^^^ readReg b s) s)) :=
  congrArg Host.Outcome.next (runF2R_of_alu_eq_regValue rfl)

theorem exec_not_regByte :
    exec (.not (regByte a)) s = .next (advanced (.alu .not) 1 (withReg a (~~~readReg a s) s)) :=
  congrArg Host.Outcome.next (runF1_of_alu_eq_regValue rfl)

theorem exec_shl_regByte :
    exec (.shl (regByte a) (regByte b)) s =
      .next (advanced (.alu .shl) 2 (withReg a (readReg a s <<< (readReg b s).toNat) s)) :=
  congrArg Host.Outcome.next (runF2R_of_alu_eq_regValue (alu_shl_eq_shiftLeft ..))

theorem exec_shr_regByte :
    exec (.shr (regByte a) (regByte b)) s =
      .next (advanced (.alu .shr) 2 (withReg a (readReg a s >>> (readReg b s).toNat) s)) :=
  congrArg Host.Outcome.next (runF2R_of_alu_eq_regValue (alu_shr_eq_ushiftRight ..))

end

/-- Settles O29: the register gets `a &&& b`, whose bits are the conjunctions. -/
theorem andResult : Obligations.AndResult :=
  ⟨fun _ _ => rfl, fun s a b => ⟨_, fun _ => BitVec.getLsbD_and, exec_and_regByte a b s⟩⟩

/-- Settles O30: the register gets `a ||| b`, whose bits are the disjunctions. -/
theorem orResult : Obligations.OrResult :=
  ⟨fun _ _ => rfl, fun s a b => ⟨_, fun _ => BitVec.getLsbD_or, exec_or_regByte a b s⟩⟩

/-- Settles O31: the register gets `a ^^^ b`, whose bits are 1 where those of the operands differ. -/
theorem xorResult : Obligations.XorResult :=
  ⟨fun _ _ => rfl, fun s a b => ⟨_, fun k => getLsbD_xor_eq_decide_ne _ _ k, exec_xor_regByte a b s⟩⟩

/-- Settles O32: the register gets the complement, which is both the inverted bits and 255 minus the value. -/
theorem notResult : Obligations.NotResult :=
  ⟨fun _ => rfl, fun s a => ⟨_, getLsbD_not_of_fin _, BitVec.toNat_not, exec_not_regByte a s⟩⟩

/-- Settles O34: the register gets the shift by the whole byte, read as a number and bit by bit. -/
theorem shlResult : Obligations.ShlResult :=
  ⟨fun _ _ => rfl, fun s a b =>
    ⟨_, toNat_shiftLeft_eq_mul_pow_mod _ _, getLsbD_shiftLeft_of_fin _ _, exec_shl_regByte a b s⟩⟩

/-- Settles O35: the register gets the logical shift by the whole byte, read as a number and bit by bit. -/
theorem shrResult : Obligations.ShrResult :=
  ⟨fun _ _ => rfl, fun s a b =>
    ⟨_, toNat_ushiftRight_eq_div_pow _ _, fun k => getLsbD_ushiftRight_eq _ _ k, exec_shr_regByte a b s⟩⟩

end Sys2Proof.Machine

/-! JMP, JEQ and JNE (44_control_flow.md R140 to R142). -/

namespace Sys2Proof.Machine

open Sys2Proof.Spec

/-- A conditional jump by its condition `c`: the target is retired to the pc, or there is nothing to write and the pc advances. -/
theorem runF1_of_alu_eq_ite_newPc {f : AluOp} {a : RegId} {s : State} {c : Prop} [Decidable c]
    (h : alu f (readReg a s) 0 s.e = if c then .newPc (readReg a s) else .noChange) :
    runF1 f (regByte a) s = if c then writePc (readReg a s) s else advanced (.alu f) 1 s := by
  rw [runF1_regByte, h]
  split
  · rfl
  · exact retire_noChange_eq ..

section
variable (a : RegId) (s : State)

theorem exec_jmp_regByte : exec (.jmp (regByte a)) s = .next (writePc (readReg a s) s) :=
  congrArg Host.Outcome.next (runF1_regByte .jmp a s)

theorem exec_jeq_regByte :
    exec (.jeq (regByte a)) s =
      .next (if s.e = true then writePc (readReg a s) s else advanced (.alu .jeq) 1 s) :=
  congrArg Host.Outcome.next (runF1_of_alu_eq_ite_newPc (alu_jeq_eq ..))

theorem exec_jne_regByte :
    exec (.jne (regByte a)) s =
      .next (if s.e = false then writePc (readReg a s) s else advanced (.alu .jne) 1 s) :=
  congrArg Host.Outcome.next (runF1_of_alu_eq_ite_newPc (alu_jne_eq ..))

end

/-- Settles O37: the ALU's answer for JMP is the register as the new pc, which is retired without an advance. -/
theorem jmpResult : Obligations.JmpResult :=
  ⟨fun _ => rfl, fun s a => exec_jmp_regByte a s⟩

/-- Settles O38: the ALU answers the register as the new pc exactly if `E` is true. -/
theorem jeqResult : Obligations.JeqResult :=
  ⟨fun _ => rfl, fun s a => exec_jeq_regByte a s⟩

/-- Settles O39: the ALU answers the register as the new pc exactly if `E` is false. -/
theorem jneResult : Obligations.JneResult :=
  ⟨fun _ => rfl, fun s a => exec_jne_regByte a s⟩

end Sys2Proof.Machine

/-! CMP (45_compare.md R150, R151). -/

namespace Sys2Proof.Machine

open Sys2Proof.Spec

/-- For equal operands the ALU's flag is retired to `E`, whatever `E` was; for unequal ones see `exec_cmp_of_ne`. -/
theorem exec_cmp_of_eq {s : State} {a b : RegId} (h : readReg a s = readReg b s) :
    exec (.cmp (regByte a) (regByte b)) s = .next (advanced (.alu .cmp) 2 (writeE true s)) := by
  have halu : alu .cmp (readReg a s) (readReg b s) s.e = .newFlag true := by
    rw [alu_cmp_eq, if_pos (congrArg BitVec.toNat h)]
  calc exec (.cmp (regByte a) (regByte b)) s
    _ = .next (runF2R .cmp (regByte a) (regByte b) s) := rfl
    _ = .next (retire .cmp 2 a b.val (.newFlag true) s) := by rw [runF2R_regByte, halu]
    _ = .next (advanced (.alu .cmp) 2 (writeE true s)) := congrArg _ (retire_newFlag_eq ..)

/-- The truth table under R151 as an or. -/
theorem exec_cmp_regByte (a b : RegId) (s : State) :
    exec (.cmp (regByte a) (regByte b)) s =
      .next (advanced (.alu .cmp) 2 (writeE (s.e || decide (readReg a s = readReg b s)) s)) := by
  by_cases h : readReg a s = readReg b s
  · rw [exec_cmp_of_eq h, decide_eq_true h, Bool.or_true]
  · have hkept : writeE s.e s = s := rfl
    rw [exec_cmp_of_ne h, advance_eq_advanced, decide_eq_false h, Bool.or_false, hkept]

/-- Settles O41: equal operands set `E`, unequal ones keep it, and R76's advance follows in both cases. -/
theorem cmpResult : Obligations.CmpResult :=
  ⟨fun _ _ => rfl, fun s a b => exec_cmp_regByte a b s⟩

end Sys2Proof.Machine

/-! HLT (46_halt.md R155, R156). -/

namespace Sys2Proof.Machine

theorem exec_hlt (s : State) : exec .hlt s = .next (enterHalted s) := rfl

/-- R70 for one state: an ended engine takes no step. -/
theorem step_ne_next_of_not_running {s : State} (hrun : s.run ≠ .running) (t : State) : step s ≠ .next t := by
  intro hstep
  obtain ⟨hrunning, -⟩ := step_cases s t hstep
  exact hrun hrunning

theorem enterHalted_not_running (s : State) : (enterHalted s).run ≠ .running := by
  rw [enterHalted_run]
  decide

/-- Settles O42: HLT retires as `enterHalted` with no advance, and the halted state is no running one, so it has no step. -/
theorem hltResult : Obligations.HltResult :=
  ⟨rfl, fun s => ⟨exec_hlt s, step_ne_next_of_not_running (enterHalted_not_running s)⟩⟩

end Sys2Proof.Machine

/-! Precise faults (60_exceptions.md R168), by the first fault of R82's list. -/

namespace Sys2Proof.Machine

open Sys2Proof.Spec

/-! ### The items of R82's list by their kind -/

/-- Items 3 and 4 record an address of the instruction, so one below its end. -/
theorem operandFault_eq_some {s : State} {k : Nat} {r : FaultRecord} (h : operandFault s k = some r) :
    ∃ op, opAt s = some op ∧ k ≤ operandCount op ∧ r.info = s.pc.toNat + k := by
  rw [operandFault] at h
  split at h
  next howns =>
    obtain ⟨op, hop, hk⟩ := (Option.any_eq_true _ _).mp howns
    refine ⟨op, hop, of_decide_eq_true hk, ?_⟩
    split at h
    · cases h; rfl
    · split at h <;> cases h
      rfl
  next => cases h

theorem kind_of_indexFault {s : State} {k : Nat} {r : FaultRecord} (h : indexFault s k = some r) :
    r.kind = .registerIndexOutOfRange := by
  unfold indexFault at h
  split at h
  · split at h <;> cases h
    rfl
  · cases h

theorem kind_of_divisorFault {s : State} {r : FaultRecord} (h : divisorFault s = some r) : r.kind = .divisionByZero := by
  unfold divisorFault at h
  split at h
  · split at h <;> cases h
    rfl
  · cases h

/-- Of the list's items only an operand fetch can be out of range: the pc itself never is. -/
theorem operandFault_of_mem_faultList {s : State} {r : FaultRecord} (h : some r ∈ faultList s)
    (hkind : r.kind = .addressOutOfRange) : ∃ k, operandFault s k = some r := by
  simp only [faultList, List.mem_cons, List.not_mem_nil, or_false] at h
  rcases h with hunset | hunsupported | hfirst | hsecond | hindex | hindex | hdivisor
  · split at hunset <;> cases hunset
    cases hkind
  · split at hunsupported
    · split at hunsupported <;> cases hunsupported
      cases hkind
    · cases hunsupported
  · exact ⟨1, hfirst.symm⟩
  · exact ⟨2, hsecond.symm⟩
  · cases (kind_of_indexFault hindex.symm).symm.trans hkind
  · cases (kind_of_indexFault hindex.symm).symm.trans hkind
  · cases (kind_of_divisorFault hdivisor.symm).symm.trans hkind

/-- An operand fetch fault has a datum below `pc + length`. -/
theorem info_lt_of_firstFault {s : State} {r : FaultRecord} (h : (faultList s).findSome? id = some r)
    (hkind : r.kind = .addressOutOfRange) :
    ∃ op, opAt s = some op ∧ r.info < s.pc.toNat + 1 + operandCount op := by
  obtain ⟨_, hmem, rfl⟩ := List.exists_of_findSome?_eq_some h
  obtain ⟨k, hk⟩ := operandFault_of_mem_faultList hmem hkind
  obtain ⟨op, hop, hle, hinfo⟩ := operandFault_eq_some hk
  exact ⟨op, hop, by omega⟩

/-- Settles O49: a fault of R82's list changes nothing but `run` and `fault`, with a datum below `pc + length` if it is out of range; where the
list has none the fault is that of the advance, whose datum is `pc + length`. -/
theorem faultsArePrecise : Obligations.FaultsArePrecise := by
  intro s t r hstep hfaulted hrec
  obtain ⟨hrun, -⟩ := step_cases s t hstep
  have hwins := firstFaultWins s hrun
  cases hfirst : (faultList s).findSome? id with
  | some r' =>
    rw [hfirst] at hwins
    cases hstep.symm.trans hwins
    cases hrec
    refine ⟨fun _ => rfl, fun hkind => ?_⟩
    obtain ⟨op, hop, hlt⟩ := info_lt_of_firstFault hfirst hkind
    exact ⟨op, hop, .inl ⟨hlt, rfl⟩⟩
  | none =>
    rw [hfirst] at hwins
    obtain ⟨i, t', hf, hstep', hadvance⟩ := hwins
    cases hstep.symm.trans hstep'
    obtain ⟨u, hexec, hu, rfl⟩ := hadvance hfaulted
    cases hrec
    refine ⟨fun hkind => absurd rfl hkind, fun _ => ?_⟩
    have hop : opAt s = some (instrOp i) := opAt_of_opcode (memRead_opcode_of_fetch hf)
    have hinfo : s.pc.toNat + instrLength i = s.pc.toNat + 1 + operandCount (instrOp i) := (Nat.add_assoc ..).symm
    exact ⟨instrOp i, hop, .inr ⟨hinfo, i, u, hf, hexec, hu, rfl⟩⟩

end Sys2Proof.Machine

/-! Decoding and encoding are inverse (30_encoding.md sections 1 to 4), and what a step makes of bytes that decode. -/

namespace Sys2Proof

theorem assemble_operandBytes (i : Instr) :
    assemble (instrOp i) ((operandBytes i).getD 0 0) ((operandBytes i).getD 1 0) = i := by
  cases i <;> rfl

/-- The converse of `byteAt_of_decodeFrom_eq_ok`: a source of bytes that holds an encoding reads as its instruction. -/
theorem decodeFrom_eq_ok_of_byteAt {ε : Type} {byteAt : Nat → Except ε Byte} {i : Instr}
    (h : ∀ k b, (encode i)[k]? = some b → byteAt k = .ok b) : decodeFrom byteAt = .ok i := by
  have h0 : byteAt 0 = .ok (opcodeByte (instrOp i)) := h 0 _ rfl
  have hlen := operandBytes_length i
  have hi := assemble_operandBytes i
  have hle := operandCount_le (instrOp i)
  simp only [decodeFrom, h0, lookupOp_opcodeByte]
  rcases hc : operandCount (instrOp i) with _ | _ | _ | n
  · rw [List.length_eq_zero_iff.mp (hlen.trans hc)] at hi
    exact congrArg Except.ok hi
  · obtain ⟨b1, hop⟩ := List.length_eq_one_iff.mp (hlen.trans hc)
    have h1 : byteAt 1 = .ok b1 := h 1 b1 (by rw [encode, hop]; rfl)
    rw [hop] at hi
    simp only [h1]
    exact congrArg Except.ok hi
  · obtain ⟨b1, b2, hop⟩ := List.length_eq_two.mp (hlen.trans hc)
    have h1 : byteAt 1 = .ok b1 := h 1 b1 (by rw [encode, hop]; rfl)
    have h2 : byteAt 2 = .ok b2 := h 2 b2 (by rw [encode, hop]; rfl)
    rw [hop] at hi
    simp only [h1, h2]
    exact congrArg Except.ok hi
  · omega

theorem decodeFrom_eq_ok_iff {ε : Type} {byteAt : Nat → Except ε Byte} {i : Instr} :
    decodeFrom byteAt = .ok i ↔ ∀ k b, (encode i)[k]? = some b → byteAt k = .ok b :=
  ⟨fun h _ _ => byteAt_of_decodeFrom_eq_ok h, decodeFrom_eq_ok_of_byteAt⟩

theorem length_encode (i : Instr) : (encode i).length = instrLength i := by
  rw [encode, List.length_cons, operandBytes_length, instrLength, Nat.add_comm]

theorem listByte_eq_ok_iff {bs : List Byte} {k : Nat} {b : Byte} : listByte bs k = .ok b ↔ bs[k]? = some b := by
  rw [listByte]
  cases bs[k]? <;> simp

/-- A list of bytes reads as an instruction exactly when it begins with its encoding. -/
theorem decodeFrom_listByte_eq_ok_iff {bs : List Byte} {i : Instr} :
    decodeFrom (listByte bs) = .ok i ↔ encode i <+: bs := by
  simp only [decodeFrom_eq_ok_iff, listByte_eq_ok_iff]
  refine ⟨fun h => ?_, ?_⟩
  · exact List.prefix_iff_getElem?.mpr fun k hk => h k _ (List.getElem?_eq_getElem hk)
  · rintro ⟨rest, rfl⟩ k b hb
    exact List.getElem?_append_left (List.getElem?_eq_some_iff.mp hb).1 ▸ hb

/-- The decoder's answer: the instruction read, and the list without the instruction's length. -/
theorem decode_eq_ok_iff {bs rest : List Byte} {i : Instr} :
    decode bs = .ok (i, rest) ↔ encode i <+: bs ∧ bs.drop (encode i).length = rest := by
  rw [← decodeFrom_listByte_eq_ok_iff, decode]
  cases decodeFrom (listByte bs) with
  | error r => simp
  | ok j =>
    simp only [Except.ok.injEq, Prod.mk.injEq]
    exact and_congr_right fun hj => by rw [hj, length_encode]

/-- Settles O10: the list begins with the encoding exactly if it is the encoding followed by what dropping its length leaves. -/
theorem decodeInvertsEncode : Obligations.DecodeInvertsEncode := by
  intro bs rest i
  rw [decode_eq_ok_iff]
  constructor
  · rintro ⟨⟨tail, rfl⟩, rfl⟩
    rw [List.drop_left]
  · rintro rfl
    exact ⟨⟨rest, rfl⟩, List.drop_left⟩

theorem decode_encode_append (i : Instr) (rest : List Byte) : decode (encode i ++ rest) = .ok (i, rest) :=
  (decodeInvertsEncode _ _ _).mpr rfl

/-- Settles O9: each list is the encoding of its instruction followed by the rest, and 0x00 is not in the opcode map. -/
theorem opcodeBytesDecode : Obligations.OpcodeBytesDecode := by
  intro a b rest
  refine ⟨decode_encode_append (.ldi a b) rest, decode_encode_append (.prn a) rest, decode_encode_append (.add a b) rest,
    decode_encode_append (.sub a b) rest, decode_encode_append (.mul a b) rest, decode_encode_append (.div a b) rest,
    decode_encode_append (.mod a b) rest, decode_encode_append (.and a b) rest, decode_encode_append (.or a b) rest,
    decode_encode_append (.xor a b) rest, decode_encode_append (.not a) rest, decode_encode_append (.shl a b) rest,
    decode_encode_append (.shr a b) rest, decode_encode_append (.jmp a) rest, decode_encode_append (.jeq a) rest,
    decode_encode_append (.jne a) rest, decode_encode_append (.cmp a b) rest, decode_encode_append .hlt rest,
    decode_of_unsupported rfl rest⟩

end Sys2Proof

namespace Sys2Proof.Machine

theorem fetch_eq_ok_iff {s : State} {i : Instr} :
    fetch s = .ok i ↔ ∀ k b, (encode i)[k]? = some b → memRead s.mem (s.pc.toNat + k) = .ok b :=
  decodeFrom_eq_ok_iff

/-- Settles O13: bytes that decode with no rest are the instruction's encoding, so memory holding them is a fetch of it. -/
theorem stepRunsDecoded : Obligations.StepRunsDecoded := by
  intro s bs i hrun hdecode hmem
  obtain rfl : bs = encode i := by simpa using (decodeInvertsEncode bs [] i).mp hdecode
  refine step_of_fetch_ok hrun (fetch_eq_ok_iff.mpr fun k b hb => ?_)
  obtain ⟨hk, rfl⟩ := List.getElem?_eq_some_iff.mp hb
  exact hmem k hk

end Sys2Proof.Machine

/-! What an instruction writes: one field of the state at a time, then where it leaves the control (pc, run state, fault record). -/

namespace Sys2Proof.Machine

open Sys2Proof.Spec

/-! ### Memory, output log and registers -/

@[simp] theorem fetchFault_mem (r : DecodeReject Cause) (s : State) : (fetchFault r s).mem = s.mem := by
  obtain ⟨_, _, h⟩ := fetchFault_eq r s
  rw [h]

@[simp] theorem fetchFault_out (r : DecodeReject Cause) (s : State) : (fetchFault r s).out = s.out := by
  obtain ⟨_, _, h⟩ := fetchFault_eq r s
  rw [h]

@[simp] theorem retire_mem (f : AluOp) (n : Nat) (a : RegId) (rb : Nat) (r : AluResult) (s : State) :
    (retire f n a rb r s).mem = s.mem := by
  cases r <;> simp [retire]

@[simp] theorem retire_out (f : AluOp) (n : Nat) (a : RegId) (rb : Nat) (r : AluResult) (s : State) :
    (retire f n a rb r s).out = s.out := by
  cases r <;> simp [retire]

/-- Retiring an ALU result writes a register only where the result is a register value. -/
theorem retire_x_cases (f : AluOp) (n : Nat) (a : RegId) (rb : Nat) (r : AluResult) (s : State) :
    (retire f n a rb r s).x = s.x ∨ ∃ v, r = .regValue v ∧ (retire f n a rb r s).x = (writeReg a v s).x := by
  cases r with
  | regValue v => exact .inr ⟨v, rfl, advance_x ..⟩
  | newPc t => exact .inl rfl
  | newFlag b => exact .inl (advance_x ..)
  | noChange => exact .inl (advance_x ..)
  | divisionByZero => exact .inl rfl

/-- An instruction whose ALU result is a register value has its first operand as its destination (10_state.md R12). -/
theorem destination_of_alu_eq_regValue {i : Instr} {f : AluOp} {x y v : Byte} {e : Bool} (hop : instrOp i = .alu f)
    (h : alu f x y e = .regValue v) : destination i = i.regBytes.head? := by
  cases i with
  | prn | hlt => cases hop
  | jmp => cases hop; cases h
  | jeq | jne => cases hop; cases e <;> cases h
  | cmp => cases hop; rw [alu_cmp_eq] at h; split at h <;> cases h
  | _ => rfl

section
variable {i : Instr} {s t : State} (h : exec i s = .next t)
include h

theorem exec_mem : t.mem = s.mem := by
  rcases exec_cases i s with ⟨b, _, _, he⟩ | ⟨_, he⟩ | ⟨a, _, he⟩ | ⟨f, a, rb, v, _, _, he⟩ <;> rw [he] at h <;> cases h
  · rfl
  · rfl
  · exact advance_mem ..
  · exact retire_mem ..

/-- An instruction keeps the output log, or is a legal PRN (R24). -/
theorem exec_out_cases : t.out = s.out ∨ ∃ a : RegId, i = .prn (regByte a) ∧ t.out = s.out ++ [readReg a s] := by
  rcases exec_cases i s with ⟨b, _, _, he⟩ | ⟨_, he⟩ | ⟨a, hi, he⟩ | ⟨f, a, rb, v, _, _, he⟩ <;> rw [he] at h <;> cases h
  · exact .inl rfl
  · exact .inl rfl
  · exact .inr ⟨a, hi, advance_out ..⟩
  · exact .inl (retire_out ..)

/-- An instruction keeps every register, or writes the one of its destination byte (R12). -/
theorem exec_x_cases : t.x = s.x ∨ ∃ (a : RegId) (v : Byte), destination i = some (regByte a) ∧ t.x = (writeReg a v s).x := by
  rcases exec_cases i s with ⟨b, _, _, he⟩ | ⟨_, he⟩ | ⟨a, _, he⟩ | ⟨f, a, rb, v, hop, hreg, he⟩ <;> rw [he] at h <;> cases h
  · exact .inl rfl
  · exact .inl rfl
  · exact .inl (advance_x ..)
  · rcases retire_x_cases f (operandCount (.alu f)) a rb (alu f (readReg a s) v s.e) s with hkept | ⟨w, halu, hset⟩
    · exact .inl hkept
    · refine .inr ⟨a, w, ?_, hset⟩
      rw [destination_of_alu_eq_regValue hop halu]
      rcases hreg with ⟨hreg, _⟩ | ⟨b, hreg, _⟩ <;> rw [hreg] <;> rfl

theorem readReg_exec_of_not_destination {r : RegId} (hr : destination i ≠ some (regByte r)) : readReg r t = readReg r s := by
  rcases exec_x_cases h with hkept | ⟨a, v, hdest, hset⟩
  · rw [readReg, hkept, readReg]
  · have hne : a ≠ r := fun har => hr (har ▸ hdest)
    rw [readReg, hset, ← readReg, readReg_writeReg_of_ne a r v s hne]

end

theorem step_mem {s t : State} (h : step s = .next t) : t.mem = s.mem := by
  obtain ⟨_, ⟨r, _, rfl⟩ | ⟨i, _, hexec⟩⟩ := step_cases s t h
  · exact fetchFault_mem r s
  · exact exec_mem hexec

/-- Settles O8: neither a failed fetch nor an instruction writes memory. -/
theorem memoryNeverWritten : Obligations.MemoryNeverWritten := by
  refine ⟨fun i s t h => ⟨exec_mem h, fun a => ?_⟩, fun s t h => ⟨step_mem h, fun a => ?_⟩⟩
  · rw [exec_mem h]
  · rw [step_mem h]

/-- Settles O17: each of the forms an instruction can take answers a next state. -/
theorem execTotal : Obligations.ExecTotal := exec_eq_next

/-! ### Control -/

/-- The jump is taken (R140 to R142). -/
def TakesJump (op : Op) (e : Bool) : Prop := op = .alu .jmp ∨ (op = .alu .jeq ∧ e = true) ∨ (op = .alu .jne ∧ e = false)

theorem alu_eq_newPc_iff (f : AluOp) (a b : Byte) (e : Bool) : alu f a b e = .newPc a ↔ TakesJump (.alu f) e := by
  constructor
  · intro h
    rcases alu_kind f a b e with ⟨v, hr⟩ | ⟨_, hf⟩ | ⟨hr, _⟩ | ⟨hr, _⟩ | ⟨hr, _⟩
    · cases hr.symm.trans h
    · simpa [TakesJump] using hf
    · cases hr.symm.trans h
    · cases hr.symm.trans h
    · cases hr.symm.trans h
  · rintro (hf | ⟨hf, rfl⟩ | ⟨hf, rfl⟩) <;> cases hf <;> rfl

/-- Why an instruction faults: an illegal register byte, a zero divisor, or no room to advance after an instruction that does not jump
or halt (R54, R103, R104, R76). -/
inductive ExecCause (i : Instr) (s : State) : Cause → Prop where
  | illegalIndex (b : Byte) (hb : 8 ≤ b.toNat) : ExecCause i s ⟨.registerIndexOutOfRange, b.toNat⟩
  | zeroDivisor (b : RegId) (hop : instrOp i = .alu .div ∨ instrOp i = .alu .mod) : ExecCause i s ⟨.divisionByZero, b.val⟩
  | noRoom (hown : 1 ≤ operandCount (instrOp i)) (hjump : ¬ TakesJump (instrOp i) s.e) (hpc : 255 < s.pc.toNat + instrLength i) :
      ExecCause i s ⟨.addressOutOfRange, s.pc.toNat + instrLength i⟩

/-- Where an instruction leaves the pc, the run state and the fault record. -/
inductive ExecControl (i : Instr) (s t : State) : Prop where
  | advances (hpc : t.pc.toNat = s.pc.toNat + instrLength i) (hrun : t.run = s.run) (hfault : t.fault = s.fault)
  | jumps (a : RegId) (hjump : TakesJump (instrOp i) s.e) (hreg : i.regBytes = [regByte a]) (hpc : t.pc = readReg a s)
      (hrun : t.run = s.run) (hfault : t.fault = s.fault)
  | halts (hi : i = .hlt) (ht : t = enterHalted s)
  | faults (c : Cause) (hcause : ExecCause i s c) (hpc : t.pc = s.pc) (hrun : t.run = .faulted)
      (hfault : t.fault = some ⟨c.kind, s.pc, some (opcodeByte (instrOp i)), c.info⟩)

/-- The control after an advance from a state with an effect made that leaves the control as it was. -/
theorem execControl_advance {i : Instr} {op : Op} {s u : State} (hop : instrOp i = op) (hown : 1 ≤ operandCount op)
    (hjump : ¬ TakesJump op s.e) (hpc : u.pc = s.pc) (hrun : u.run = s.run) (hfault : u.fault = s.fault) :
    ExecControl i s (advance op (operandCount op) u) := by
  subst hop
  have hlen : u.pc.toNat + 1 + operandCount (instrOp i) = s.pc.toNat + instrLength i := by
    rw [hpc, instrLength, Nat.add_assoc]
  rcases advance_cases (instrOp i) (operandCount (instrOp i)) u with ⟨hroom, h⟩ | ⟨hroom, h⟩ <;> rw [h, hlen] <;>
    rw [hlen] at hroom
  · exact .advances (Nat.mod_eq_of_lt (Nat.lt_succ_of_le hroom)) hrun hfault
  · exact .faults _ (.noRoom hown hjump hroom) hpc rfl (hpc ▸ rfl)

theorem one_le_operandCount_alu (f : AluOp) : 1 ≤ operandCount (.alu f) := by
  cases f <;> decide

/-- A jump names one register, its target. -/
theorem length_regBytes_of_takesJump {i : Instr} {e : Bool} (h : TakesJump (instrOp i) e) : i.regBytes.length = 1 := by
  rcases h with hop | ⟨hop, _⟩ | ⟨hop, _⟩ <;> cases i <;> cases hop <;> rfl

theorem execControl_retire {i : Instr} {s : State} {f : AluOp} {a : RegId} {rb : Nat} {v : Byte} (hop : instrOp i = .alu f)
    (hreg : i.regBytes = [regByte a] ∨ ∃ b : RegId, i.regBytes = [regByte a, regByte b] ∧ rb = b.val) :
    ExecControl i s (retire f (operandCount (.alu f)) a rb (alu f (readReg a s) v s.e) s) := by
  have hjump := alu_eq_newPc_iff f (readReg a s) v s.e
  rcases alu_kind f (readReg a s) v s.e with ⟨w, hr⟩ | ⟨hr, _⟩ | ⟨hr, _⟩ | ⟨hr, _⟩ | ⟨hr, hdiv, _⟩ <;>
    rw [hr] at hjump ⊢
  · exact execControl_advance hop (one_le_operandCount_alu f) (by simp [← hjump]) rfl rfl rfl
  · have htaken : TakesJump (instrOp i) s.e := hop ▸ hjump.mp rfl
    have hlen := length_regBytes_of_takesJump htaken
    rcases hreg with hreg | ⟨b, hreg, _⟩
    · exact .jumps a htaken hreg rfl rfl rfl
    · rw [hreg] at hlen; cases hlen
  · exact execControl_advance hop (one_le_operandCount_alu f) (by simp [← hjump]) rfl rfl rfl
  · exact execControl_advance hop (one_le_operandCount_alu f) (by simp [← hjump]) rfl rfl rfl
  · have hdivides : instrOp i = .alu .div ∨ instrOp i = .alu .mod := by simpa [hop] using hdiv
    obtain ⟨_, _, _, hpair⟩ := operandBytes_eq_pair_of_divides hdivides
    rcases hreg with hreg | ⟨b, _, rfl⟩
    · cases hreg.symm.trans hpair
    · exact .faults _ (.zeroDivisor b hdivides) rfl rfl (by rw [hop]; rfl)

theorem execControl {i : Instr} {s t : State} (h : exec i s = .next t) : ExecControl i s t := by
  rcases exec_cases i s with ⟨b, _, hb, he⟩ | ⟨hi, he⟩ | ⟨a, rfl, he⟩ | ⟨f, a, rb, v, hop, hreg, he⟩ <;> rw [he] at h <;> cases h
  · exact .faults _ (.illegalIndex b hb) rfl rfl rfl
  · exact .halts hi rfl
  · exact execControl_advance rfl le_rfl (by simp [TakesJump]) rfl rfl rfl
  · exact execControl_retire hop (hreg.imp (fun h => h.1) fun ⟨b, hb, hrb, _⟩ => ⟨b, hb, hrb⟩)

theorem eq_jmp_of_instrOp {i : Instr} (h : instrOp i = .alu .jmp) : ∃ ra, i = .jmp ra := by
  cases i with
  | jmp ra => exact ⟨ra, rfl⟩
  | _ => cases h

theorem jump_of_takesJump {i : Instr} {a : RegId} {e : Bool} (h : TakesJump (instrOp i) e) (hreg : i.regBytes = [regByte a]) :
    i = .jmp (regByte a) ∨ (i = .jeq (regByte a) ∧ e = true) ∨ (i = .jne (regByte a) ∧ e = false) := by
  rcases h with hop | ⟨hop, he⟩ | ⟨hop, he⟩
  · obtain ⟨ra, rfl⟩ := eq_jmp_of_instrOp hop
    cases hreg
    exact .inl rfl
  · obtain ⟨ra, rfl⟩ := eq_jeq_of_instrOp hop
    cases hreg
    exact .inr (.inl ⟨rfl, he⟩)
  · obtain ⟨ra, rfl⟩ := eq_jne_of_instrOp hop
    cases hreg
    exact .inr (.inr ⟨rfl, he⟩)

/-- Settles O18: the four ways an instruction can leave the control are the four ways the pc goes. -/
theorem pcMoves : Obligations.PcMoves := by
  intro i s t h
  cases execControl h with
  | advances hpc => exact .inr (.inr (.inl hpc))
  | jumps a hjump hreg hpc => exact .inr (.inr (.inr ⟨a, jump_of_takesJump hjump hreg, hpc⟩))
  | halts hi ht => exact .inr (.inl ⟨hi, ht ▸ rfl⟩)
  | faults c _ hpc hrun => exact .inl ⟨hrun, hpc⟩

/-! ### Frames (10_state.md R12) -/

/-- The run state and the fault record change only to `Halted` by HLT or to `Faulted` at this pc. -/
theorem exec_run_cases {i : Instr} {s t : State} (h : exec i s = .next t) :
    (t.run = s.run ∧ t.fault = s.fault) ∨ (i = .hlt ∧ t.run = .halted ∧ t.fault = s.fault ∧ t.pc = s.pc) ∨
      (t.run = .faulted ∧ t.pc = s.pc ∧ ∃ r, t.fault = some r ∧ r.pc = s.pc) := by
  cases execControl h with
  | advances _ hrun hfault => exact .inl ⟨hrun, hfault⟩
  | jumps _ _ _ _ hrun hfault => exact .inl ⟨hrun, hfault⟩
  | halts hi ht => subst ht; exact .inr (.inl ⟨hi, rfl, rfl, rfl⟩)
  | faults c _ hpc hrun hfault => exact .inr (.inr ⟨hrun, hpc, _, hfault, rfl⟩)

/-- Settles O45: the one register written is the destination's; CMP, PRN and HLT, which write something else, have no destination. -/
theorem registerWritersFrame : Obligations.RegisterWritersFrame := by
  intro i ra s t hdest h
  have he : t.e = s.e := (exec_e_cases h).resolve_right fun ⟨⟨_, _, hi⟩, _⟩ => by subst hi; cases hdest
  have hout : t.out = s.out := (exec_out_cases h).resolve_right fun ⟨_, hi, _⟩ => by subst hi; cases hdest
  have hrun := (exec_run_cases h).imp_right fun h => h.resolve_left fun ⟨hi, _⟩ => by subst hi; cases hdest
  refine ⟨fun r hr => readReg_exec_of_not_destination h ?_, he, hout, fun _ => by rw [exec_mem h], hrun⟩
  rw [hdest]
  exact fun heq => hr (Option.some.inj heq).symm

/-- Settles O46: with no destination no register is written; CMP alone writes `E` and PRN alone the output log. -/
theorem nonWritersFrame : Obligations.NonWritersFrame := by
  intro i s t hdest h
  have hreg (r : RegId) : readReg r t = readReg r s := readReg_exec_of_not_destination h (by simp [hdest])
  have he (hcmp : ∀ ra rb, i ≠ .cmp ra rb) : t.e = s.e :=
    (exec_e_cases h).resolve_right fun ⟨⟨ra, rb, hi⟩, _⟩ => hcmp ra rb hi
  have hout (hprn : ∀ ra, i ≠ .prn ra) : t.out = s.out := (exec_out_cases h).resolve_right fun ⟨a, hi, _⟩ => hprn (regByte a) hi
  exact ⟨hreg, he, hout, fun _ => by rw [exec_mem h], exec_run_cases h⟩

end Sys2Proof.Machine

/-! The faults of a step (60_exceptions.md R160, R161) and the invariant that every step keeps. -/

namespace Sys2Proof.Machine

open Sys2Proof.Spec

/-! ### The addresses a fetch reads -/

theorem lookupCell_of_memRead {m : Memory} {a : Nat} {v : Byte} (h : memRead m a = .ok v) : a ≤ 255 ∧ lookupCell m a = some v := by
  rcases memRead_cases m a with ⟨_, hr⟩ | ⟨_, _, hr⟩ | ⟨ha, w, hw, hr⟩ <;> cases hr.symm.trans h
  exact ⟨Nat.le_of_lt_succ ha, hw⟩

theorem memRead_eq_error {m : Memory} {a : Nat} {c : Cause} (h : memRead m a = .error c) :
    (255 < a ∧ c = ⟨.addressOutOfRange, a⟩) ∨ (a ≤ 255 ∧ lookupCell m a = none ∧ c = ⟨.uninitializedMemoryRead, a⟩) := by
  rcases memRead_cases m a with ⟨ha, hr⟩ | ⟨ha, hv, hr⟩ | ⟨_, _, _, hr⟩ <;> cases hr.symm.trans h
  · exact .inl ⟨ha, rfl⟩
  · exact .inr ⟨Nat.le_of_lt_succ ha, hv, rfl⟩

/-- The last byte of a fetched instruction was read, so it lies in memory. -/
theorem pc_add_operandCount_le_of_fetch {s : State} {i : Instr} (hf : fetch s = .ok i) :
    s.pc.toNat + operandCount (instrOp i) ≤ 255 := by
  have hlast : operandCount (instrOp i) < (encode i).length := by rw [length_encode, instrLength]; omega
  exact (lookupCell_of_memRead (memRead_of_fetch hf (List.getElem?_eq_getElem hlast))).1

/-- What a faulting step records: the fault of the opcode read, of the lookup, of the first or the second operand read, or of the
instruction. -/
inductive StepFault (s : State) : FaultRecord → Prop where
  | opcodeUnset (hcell : lookupCell s.mem s.pc.toNat = none) :
      StepFault s ⟨.uninitializedMemoryRead, s.pc, none, s.pc.toNat⟩
  | unsupported (o : Byte) (hcell : lookupCell s.mem s.pc.toNat = some o) (hlook : lookupOp o = none) :
      StepFault s ⟨.unsupportedOperation, s.pc, some o, o.toNat⟩
  | operandUnset (op : Op) (hcell : lookupCell s.mem s.pc.toNat = some (opcodeByte op)) (addr : Nat)
      (haddr : s.pc.toNat < addr ∧ addr ≤ s.pc.toNat + operandCount op ∧ addr ≤ 255) :
      StepFault s ⟨.uninitializedMemoryRead, s.pc, some (opcodeByte op), addr⟩
  | operandAbove (op : Op) (hcell : lookupCell s.mem s.pc.toNat = some (opcodeByte op))
      (hpc : 255 < s.pc.toNat + operandCount op) :
      StepFault s ⟨.addressOutOfRange, s.pc, some (opcodeByte op), 256⟩
  | instruction (i : Instr) (hcell : lookupCell s.mem s.pc.toNat = some (opcodeByte (instrOp i)))
      (hpc : s.pc.toNat + operandCount (instrOp i) ≤ 255) (c : Cause) (hcause : ExecCause i s c) :
      StepFault s ⟨c.kind, s.pc, some (opcodeByte (instrOp i)), c.info⟩

/-- The fault of an operand read at the first address that cannot be read: the one before it could. -/
theorem stepFault_of_operand {s : State} {op : Op} {k : Nat} {c : Cause} (hcell : lookupCell s.mem s.pc.toNat = some (opcodeByte op))
    (hk : k < operandCount op) (hprev : s.pc.toNat + k ≤ 255) (h : memRead s.mem (s.pc.toNat + (k + 1)) = .error c) :
    StepFault s ⟨c.kind, s.pc, some (opcodeByte op), c.info⟩ := by
  rcases memRead_eq_error h with ⟨hgt, rfl⟩ | ⟨hle, _, rfl⟩
  · have haddr : s.pc.toNat + (k + 1) = 256 := by omega
    rw [haddr]
    exact .operandAbove op hcell (by omega)
  · have haddr : s.pc.toNat < s.pc.toNat + (k + 1) ∧ s.pc.toNat + (k + 1) ≤ s.pc.toNat + operandCount op := by omega
    exact .operandUnset op hcell _ ⟨haddr.1, haddr.2, hle⟩

theorem stepFault_of_fetchFault {s : State} {r : DecodeReject Cause} (hf : fetch s = .error r) :
    ∃ rec, StepFault s rec ∧ fetchFault r s = { s with run := .faulted, fault := some rec } := by
  cases fetchForm s with
  | opcodeUnread c h0 hf' =>
    cases hf.symm.trans hf'
    rcases memRead_eq_error h0 with ⟨hgt, _⟩ | ⟨_, hcell, rfl⟩
    · exact absurd s.pc.isLt (Nat.not_lt.mpr hgt)
    · exact ⟨_, .opcodeUnset hcell, rfl⟩
  | unsupported o h0 hlook hf' =>
    cases hf.symm.trans hf'
    exact ⟨_, .unsupported o (lookupCell_of_memRead h0).2 hlook, rfl⟩
  | firstUnread op c h0 howns h1 hf' =>
    cases hf.symm.trans hf'
    obtain ⟨hprev, hcell⟩ := lookupCell_of_memRead h0
    exact ⟨_, stepFault_of_operand hcell howns hprev h1, rfl⟩
  | secondUnread op b1 c h0 howns h1 h2 hf' =>
    cases hf.symm.trans hf'
    exact ⟨_, stepFault_of_operand (lookupCell_of_memRead h0).2 howns.ge (lookupCell_of_memRead h1).1 h2, rfl⟩
  | ok i hf' => cases hf.symm.trans hf'

/-- The run state and fault record after a step: kept, halted, or faulted with one of the records of `StepFault`. -/
theorem step_run_cases {s t : State} (h : step s = .next t) :
    (t.run = .running ∧ t.fault = s.fault) ∨ (t.run = .halted ∧ t.fault = s.fault) ∨
      (t.run = .faulted ∧ t.pc = s.pc ∧ ∃ r, t.fault = some r ∧ StepFault s r) := by
  obtain ⟨hrunning, ⟨r, hf, rfl⟩ | ⟨i, hf, hexec⟩⟩ := step_cases s t h
  · obtain ⟨rec, hrec, hfault⟩ := stepFault_of_fetchFault hf
    rw [hfault]
    exact .inr (.inr ⟨rfl, rfl, rec, rfl, hrec⟩)
  · cases execControl hexec with
    | advances _ hrun hfault => exact .inl ⟨hrun.trans hrunning, hfault⟩
    | jumps _ _ _ _ hrun hfault => exact .inl ⟨hrun.trans hrunning, hfault⟩
    | halts _ ht => subst ht; exact .inr (.inl ⟨rfl, rfl⟩)
    | faults c hcause hpc hrun hfault =>
      have hcell := (lookupCell_of_memRead (memRead_opcode_of_fetch hf)).2
      exact .inr (.inr ⟨hrun, hpc, _, hfault, .instruction i hcell (pc_add_operandCount_le_of_fetch hf) c hcause⟩)

/-! ### The invariant -/

theorem inv_of_no_fault {s : State} (hmem : Memory.wf s.mem = true) (hrun : s.run ≠ .faulted) (hfault : s.fault = none) :
    State.inv s = true := by
  cases hr : s.run with
  | faulted => exact absurd hr hrun
  | _ => simp [State.inv, hmem, hr, hfault]

theorem inv_of_fault {s : State} {r : FaultRecord} (hmem : Memory.wf s.mem = true) (hrun : s.run = .faulted)
    (hfault : s.fault = some r) (hr : recordFits s r = true) : State.inv s = true := by
  simp [State.inv, hmem, hrun, hfault, hr]

theorem mem_wf_of_inv {s : State} (h : State.inv s = true) : Memory.wf s.mem = true :=
  (Bool.and_eq_true_iff.mp h).1

theorem fault_eq_none_of_inv {s : State} (h : State.inv s = true) (hrun : s.run = .running) : s.fault = none := by
  simpa [State.inv, hrun] using (Bool.and_eq_true_iff.mp h).2

/-- The record of a faulting step names the pc and the opcode byte there, and its datum is in R160's range. -/
theorem recordFits_of_stepFault {s : State} {r : FaultRecord} (h : StepFault s r) : recordFits s r = true := by
  cases h with
  | opcodeUnset hcell => simp [recordFits, infoFits, hcell]
  | unsupported o hcell hlook => simp [recordFits, infoFits, hcell, hlook]
  | operandUnset op hcell addr haddr => simp [recordFits, infoFits, hcell, Config.memSize]; omega
  | operandAbove op hcell hpc => simp [recordFits, infoFits, hcell]
  | instruction i hcell hpc c hcause =>
    cases hcause with
    | illegalIndex b hb => simpa [recordFits, infoFits, hcell] using ⟨hb, b.isLt⟩
    | zeroDivisor b hop => simp [recordFits, infoFits, hcell, hop]
    | noRoom _ _ hroom =>
      have haddr : s.pc.toNat + instrLength i = 256 := by rw [instrLength] at hroom ⊢; omega
      simp [recordFits, infoFits, hcell, haddr]

/-- Settles O51: memory is not written, a step that does not fault starts with no record and writes none, and a faulting step's record fits. -/
theorem stepKeepsInvariant : Obligations.StepKeepsInvariant := by
  intro s t hinv h
  have hmem : Memory.wf t.mem = true := step_mem h ▸ mem_wf_of_inv hinv
  have hnone : s.fault = none := fault_eq_none_of_inv hinv (step_cases s t h).1
  rcases step_run_cases h with ⟨hrun, hfault⟩ | ⟨hrun, hfault⟩ | ⟨hrun, hpc, r, hfault, hr⟩
  · exact inv_of_no_fault hmem (by simp [hrun]) (hfault.trans hnone)
  · exact inv_of_no_fault hmem (by simp [hrun]) (hfault.trans hnone)
  · have hfits := recordFits_of_stepFault hr
    rw [recordFits, ← hpc, ← step_mem h, ← recordFits] at hfits
    exact inv_of_fault hmem hrun hfault hfits

/-! ### AddressOutOfRange -/

theorem opAt_of_lookupCell {s : State} {op : Op} (h : lookupCell s.mem s.pc.toNat = some (opcodeByte op)) : opAt s = some op :=
  opAt_of_opcode (memRead_of_set s.pc.isLt h)

theorem not_takesJump_iff (op : Op) (e : Bool) :
    ¬ TakesJump op e ↔ op ≠ .alu .jmp ∧ (op = .alu .jeq → e = false) ∧ (op = .alu .jne → e = true) := by
  simp [TakesJump]

/-- The one cause is an operand at 256, the other an advance to 256, which a taken jump does not make. -/
theorem addressOutOfRange_of_stepFault {s : State} {r : FaultRecord} (h : StepFault s r) (hkind : r.kind = .addressOutOfRange) :
    r.info = 256 ∧ ∃ op, opAt s = some op ∧ 1 ≤ operandCount op ∧ 255 ≤ s.pc.toNat + operandCount op ∧
      (s.pc.toNat + operandCount op = 255 → ¬ TakesJump op s.e) := by
  cases h with
  | opcodeUnset | unsupported | operandUnset => cases hkind
  | operandAbove op hcell hpc =>
    have := s.pc.isLt
    exact ⟨rfl, op, opAt_of_lookupCell hcell, by omega, by omega, fun heq => by omega⟩
  | instruction i hcell hpc c hcause =>
    cases hcause with
    | illegalIndex | zeroDivisor => cases hkind
    | noRoom hown hjump hroom =>
      rw [instrLength] at hroom
      have hinfo : s.pc.toNat + instrLength i = 256 := by rw [instrLength]; omega
      exact ⟨hinfo, instrOp i, opAt_of_lookupCell hcell, hown, by omega, fun _ => hjump⟩

/-- Settles O50: the last byte of the instruction lies at 255 or above it, and an instruction has at most two operand bytes. -/
theorem addressOutOfRangeCauses : Obligations.AddressOutOfRangeCauses := by
  intro s t r h hfaulted hrec hkind
  rcases step_run_cases h with ⟨hrun, _⟩ | ⟨hrun, _⟩ | ⟨_, _, r', hrec', hfault⟩
  · cases hrun.symm.trans hfaulted
  · cases hrun.symm.trans hfaulted
  · obtain rfl : r' = r := Option.some.inj (hrec'.symm.trans hrec)
    obtain ⟨hinfo, op, hop, hown, hpc, hjump⟩ := addressOutOfRange_of_stepFault hfault hkind
    refine ⟨hinfo, op, hop, ?_⟩
    have hle := operandCount_le op
    have hmax := s.pc.isLt
    obtain hone | htwo : operandCount op = 1 ∨ operandCount op = 2 := by omega
    · obtain hlast | hroom : s.pc.toNat = 255 ∨ s.pc.toNat = 254 := by omega
      · exact .inl ⟨hone, .inl hlast⟩
      · exact .inl ⟨hone, .inr ⟨hroom, (not_takesJump_iff op s.e).mp (hjump (by omega))⟩⟩
    · exact .inr ⟨htwo, by omega⟩

end Sys2Proof.Machine

/-! Reset and the host: what each move of a session needs and does (70_reset_and_hazards.md R190 to R201). -/

namespace Sys2Proof.Machine

open Sys2Proof.Spec

/-! ### The state after reset -/

theorem readReg_reset (r : RegId) : readReg r State.reset = 0 :=
  Vector.getElem_replicate r.isLt

/-- Settles O1: the registers are eight zeros, and of the empty memory every cell is unset. -/
theorem resetValues : Obligations.ResetValues :=
  ⟨readReg_reset, rfl, rfl, rfl, rfl, rfl, fun _ ha => memRead_of_unset ha rfl⟩

theorem fetch_reset : fetch State.reset = .error (.opcodeUnread ⟨.uninitializedMemoryRead, 0⟩) := rfl

/-- Settles O5: cell 0 is unset, so the fetch ends at the opcode. -/
theorem stepOfEmptyMemory : Obligations.StepOfEmptyMemory :=
  step_of_fetch_error rfl fetch_reset

/-! ### The host's load, cell by cell -/

theorem hostLoad_cons_of_lt {addr : Nat} (h : addr < Config.memSize) (v : Nat) (vs : List Nat) (m : Memory) :
    hostLoad addr (v :: vs) m = hostLoad (addr + 1) vs (setCell addr (BitVec.ofNat 8 v) m) := by
  rcases memWrite_cases m addr v with ⟨_, hw⟩ | ⟨hge, _⟩
  · rw [hostLoad, hw]
  · omega

theorem hostLoad_cons_of_le {addr : Nat} (h : Config.memSize ≤ addr) (v : Nat) (vs : List Nat) (m : Memory) :
    hostLoad addr (v :: vs) m = (m, some ⟨.addressOutOfRange, addr⟩) := by
  rcases memWrite_cases m addr v with ⟨hlt, _⟩ | ⟨_, hw⟩
  · omega
  · rw [hostLoad, hw]

/-- What a cell holds after the load of `p` from `addr` on (R194): the program's value there, or what it held. -/
def LoadedFrom (addr : Nat) (p : List Nat) (m m' : Memory) : Prop :=
  (∀ a, a < addr → memRead m' a = memRead m a) ∧
    ∀ k, memRead m' (addr + k) = match p[k]? with
      | some v => .ok (BitVec.ofNat 8 v)
      | none => memRead m (addr + k)

theorem hostLoad_of_fits (p : List Nat) : ∀ (addr : Nat) (m : Memory), addr + p.length ≤ Config.memSize →
    ∃ m', hostLoad addr p m = (m', none) ∧ LoadedFrom addr p m m' := by
  induction p with
  | nil => exact fun addr m _ => ⟨m, rfl, fun _ _ => rfl, fun _ => rfl⟩
  | cons v vs ih =>
    intro addr m hfits
    rw [List.length_cons] at hfits
    have haddr : addr < Config.memSize := by omega
    obtain ⟨m', hload, hbelow, habove⟩ := ih (addr + 1) (setCell addr (BitVec.ofNat 8 v) m) (by omega)
    refine ⟨m', (hostLoad_cons_of_lt haddr v vs m).trans hload, fun a ha => ?_, fun k => ?_⟩
    · rw [hbelow a (by omega), memRead_setCell_of_ne (by omega)]
    · cases k with
      | zero => exact (hbelow addr (by omega)).trans (memRead_setCell_same haddr _ m)
      | succ k =>
        have hcell := habove k
        rw [memRead_setCell_of_ne (by omega), Nat.add_assoc, Nat.add_comm 1 k] at hcell
        exact hcell

theorem hostLoad_of_too_long (p : List Nat) : ∀ (addr : Nat) (m : Memory), addr ≤ Config.memSize →
    Config.memSize < addr + p.length → ∃ m' c, hostLoad addr p m = (m', some c) := by
  induction p with
  | nil => intro addr m hle hgt; rw [List.length_nil] at hgt; omega
  | cons v vs ih =>
    intro addr m hle hgt
    rw [List.length_cons] at hgt
    by_cases haddr : addr < Config.memSize
    · rw [hostLoad_cons_of_lt haddr]
      exact ih (addr + 1) _ haddr (by omega)
    · exact ⟨m, _, hostLoad_cons_of_le (Nat.not_lt.mp haddr) v vs m⟩

/-- A set cell stays set in a load, whether or not it completes. -/
theorem hostLoad_keeps_set (p : List Nat) {a : Nat} : ∀ (addr : Nat) (m : Memory), (∃ v, memRead m a = .ok v) →
    ∃ w, memRead (hostLoad addr p m).1 a = .ok w := by
  induction p with
  | nil => exact fun _ _ h => h
  | cons v vs ih =>
    intro addr m hset
    by_cases haddr : addr < Config.memSize
    · rw [hostLoad_cons_of_lt haddr]
      refine ih (addr + 1) _ ?_
      by_cases ha : a = addr
      · subst ha
        exact ⟨_, memRead_setCell_same haddr _ m⟩
      · rw [memRead_setCell_of_ne ha]
        exact hset
    · rw [hostLoad_cons_of_le (Nat.not_lt.mp haddr)]
      exact hset

theorem loadProgram_core (p : List Nat) (s : State) : (loadProgram p s).core = { s with mem := (hostLoad 0 p s.mem).1 } := by
  rcases h : hostLoad 0 p s.mem with ⟨m, _ | c⟩ <;> simp [loadProgram, h]

/-! ### The moves -/

section
variable {z z' : Session}

theorem move_load_eq_ok_iff {p : List Nat} : z.move (.load p) = .ok z' ↔ z.phase = .fresh ∧ loadProgram p z.core = z' := by
  cases hz : z.phase <;> simp [Session.move, hz]

theorem move_start_eq_ok_iff : z.move .start = .ok z' ↔ z.phase = .loaded ∧ ⟨.started, z.core⟩ = z' := by
  cases hz : z.phase <;> simp [Session.move, hz]

theorem move_step_eq_ok_iff :
    z.move .step = .ok z' ↔ z.phase = .started ∧ z'.phase = .started ∧ step z.core = .next z'.core := by
  obtain ⟨phase', core'⟩ := z'
  cases hz : z.phase with
  | started =>
    cases hstep : step z.core <;> simp [Session.move, hz, hstep, eq_comm]
  | _ => simp [Session.move, hz]

theorem observe_isSome_iff : z.observe.isSome = true ↔ z.core.run = .halted ∨ z.core.run = .faulted := by
  cases h : z.core.run <;> simp [Session.observe, h]

end

/-- Settles O4: each move by its own condition. -/
theorem hostMovesInOrder : Obligations.HostMovesInOrder := by
  intro z z'
  refine ⟨?_, fun h => ?_, move_step_eq_ok_iff, observe_isSome_iff⟩
  · rintro ⟨p, h⟩
    obtain ⟨hphase, rfl⟩ := move_load_eq_ok_iff.mp h
    rw [loadProgram_core]
    exact ⟨hphase, rfl⟩
  · obtain ⟨hphase, rfl⟩ := move_start_eq_ok_iff.mp h
    exact ⟨hphase, rfl⟩

/-- Settles O2: a load changes memory alone and only sets cells, a start nothing, and a step keeps `E` and memory and needs a running core. -/
theorem onlyResetClears : Obligations.OnlyResetClears := by
  refine ⟨fun _ => rfl, fun m z z' hm h => ?_⟩
  cases m with
  | reset => exact absurd rfl hm
  | load p =>
    obtain ⟨_, rfl⟩ := move_load_eq_ok_iff.mp h
    rw [loadProgram_core]
    exact ⟨id, fun a v ha => hostLoad_keeps_set p 0 z.core.mem ⟨v, ha⟩, fun _ => ⟨rfl, rfl⟩⟩
  | start =>
    obtain ⟨_, rfl⟩ := move_start_eq_ok_iff.mp h
    exact ⟨id, fun a v ha => ⟨v, ha⟩, fun _ => ⟨rfl, rfl⟩⟩
  | step =>
    obtain ⟨_, _, hstep⟩ := move_step_eq_ok_iff.mp h
    exact ⟨step_keeps_e_true hstep, fun a v ha => ⟨v, step_mem hstep ▸ ha⟩,
      fun hrun => absurd hstep (step_ne_next_of_not_running hrun _)⟩

/-- Settles O3: from the empty memory the load fills the program's cells, and the 257th write is refused. -/
theorem loadFillsCells : Obligations.LoadFillsCells := by
  refine ⟨fun p hp => ?_, fun p hp => ?_⟩
  · obtain ⟨m, hload, _, hcells⟩ := hostLoad_of_fits p 0 [] (by simpa using hp)
    refine ⟨m, move_load_eq_ok_iff.mpr ⟨rfl, ?_⟩, rfl, fun a ha => ?_⟩
    · simp only [loadProgram, Session.fresh, State.reset, hload]
    · have hcell := hcells a
      have hunset : memRead [] a = .error ⟨.uninitializedMemoryRead, a⟩ := memRead_of_unset ha rfl
      rw [Nat.zero_add, hunset] at hcell
      exact hcell
  · obtain ⟨m, c, hload⟩ := hostLoad_of_too_long p 0 [] (Nat.zero_le _) (by simpa using hp)
    refine ⟨⟨.loadFailed, { State.reset with mem := m }⟩, move_load_eq_ok_iff.mpr ⟨rfl, ?_⟩, rfl, rfl⟩
    simp only [loadProgram, Session.fresh, State.reset, hload]

/-- Settles O52: a load changes nothing of the reset state but its memory, which it keeps canonical. -/
theorem launchMeetsInvariant : Obligations.LaunchMeetsInvariant := by
  refine ⟨inv_of_no_fault reset_mem_wf nofun rfl, fun p z h => ?_⟩
  obtain ⟨_, rfl⟩ := move_load_eq_ok_iff.mp h
  rw [loadProgram_core]
  exact inv_of_no_fault (hostLoad_keeps_wf p 0 _ reset_mem_wf) nofun rfl

end Sys2Proof.Machine

/-! Laws of two instructions in a row or with their operands exchanged (42_arithmetic.md R107, 43_bitwise.md Laws, 40_execution_cycle.md R86). -/

namespace Sys2Proof.Machine

open Sys2Proof.Spec

/-! ### Exchanged operands -/

/-- `x0` holds 5 and `x1` holds 3: their differences are 2 and 254, their quotients 1 and 0, their remainders 2 and 3. -/
def fiveThree : State := writeReg 0 5 (writeReg 1 3 State.reset)

/-- Settles O28: sum and product do not depend on the operands' order; 5 and 3 tell the other three operations' orders apart. -/
theorem addMulCommute : Obligations.AddMulCommute := by
  refine ⟨fun s t u a b ht hu => ?_, fun s t u a b ht hu => ?_, fiveThree, 0, 1, ?_, ?_, ?_⟩
  · cases (exec_add_regByte a b s).symm.trans ht
    cases (exec_add_regByte b a s).symm.trans hu
    rw [readReg_advanced_withReg_same, readReg_advanced_withReg_same, Nat.add_comm]
  · cases (exec_mul_regByte a b s).symm.trans ht
    cases (exec_mul_regByte b a s).symm.trans hu
    rw [readReg_advanced_withReg_same, readReg_advanced_withReg_same, Nat.mul_comm]
  · intro t u ht hu
    cases ht; cases hu; decide
  · intro t u ht hu
    cases ht; cases hu; decide
  · intro t u ht hu
    cases ht; cases hu; decide

/-! ### Two in a row -/

/-- Writing a register's value back undoes a write to it. -/
theorem writeReg_readReg_writeReg (a : RegId) (v : Byte) (s : State) : writeReg a (readReg a s) (writeReg a v s) = s := by
  have hx : (s.x.set a.val v).set a.val s.x[a.val] = s.x := by rw [Vector.set_set, Vector.set_getElem_self]
  rw [writeReg, writeReg_x, readReg, hx]
  rfl

theorem exec_not_of_room (a : RegId) {s : State} (h : s.pc.toNat + 2 ≤ 255) :
    exec (.not (regByte a)) s = .next (writePc (BitVec.ofNat 8 (s.pc.toNat + 2)) (writeReg a (~~~readReg a s) s)) :=
  (exec_not_regByte a s).trans (congrArg _ (if_pos h))

/-- Settles O33: the second NOT complements the complement back, and both advances fit. -/
theorem notTwiceRestores : Obligations.NotTwiceRestores := by
  intro s a hroom
  refine ⟨_, exec_not_of_room a (by omega), ?_⟩
  have hpc : (BitVec.ofNat 8 (s.pc.toNat + 2)).toNat = s.pc.toNat + 2 := Nat.mod_eq_of_lt (by omega)
  rw [exec_not_of_room a (by rw [writePc_pc, hpc]; omega), writePc_pc, hpc, readReg_writePc, readReg_writeReg_same,
    BitVec.not_not]
  have hback := congrArg (writePc (BitVec.ofNat 8 (s.pc.toNat + 4))) (writeReg_readReg_writeReg a (~~~readReg a s) s)
  exact congrArg Host.Outcome.next hback

theorem toNat_shiftLeft_ushiftRight (x : Byte) (n : Nat) :
    ((x <<< n) >>> n).toNat = if n ≤ 8 then x.toNat % 2 ^ (8 - n) else 0 := by
  rw [toNat_ushiftRight_eq_div_pow, toNat_shiftLeft_eq_mul_pow_mod]
  split
  next h =>
    have hpow : 256 = 2 ^ (8 - n) * 2 ^ n := by rw [← Nat.pow_add, Nat.sub_add_cancel h]
    rw [hpow, Nat.mul_mod_mul_right, Nat.mul_div_cancel _ (Nat.two_pow_pos n)]
  next h =>
    have hdvd : 256 ∣ x.toNat * 2 ^ n := (Nat.pow_dvd_pow 2 (Nat.le_of_not_le h)).mul_left _
    rw [Nat.mod_eq_zero_of_dvd hdvd, Nat.zero_div]

theorem readReg_advanced (r : RegId) (op : Op) (n : Nat) (s : State) : readReg r (advanced op n s) = readReg r s := by
  rw [← advance_eq_advanced, readReg, readReg, advance_x]

theorem readReg_advanced_withReg_of_ne (op : Op) (n : Nat) {a b : RegId} (v : Byte) (s : State) (h : a ≠ b) :
    readReg b (advanced op n (withReg a v s)) = readReg b s :=
  (readReg_advanced b op n _).trans (readReg_writeReg_of_ne a b v s h)

/-- Settles O36: SHL leaves the amount in the other register, so SHR shifts the shifted value back by it. -/
theorem shiftRoundTrip : Obligations.ShiftRoundTrip := by
  intro s a b hne _
  refine ⟨_, _, exec_shl_regByte a b s, exec_shr_regByte a b _, ?_⟩
  rw [readReg_advanced_withReg_same, readReg_advanced_withReg_same, readReg_advanced_withReg_of_ne _ _ _ _ hne,
    toNat_shiftLeft_ushiftRight]

/-! ### The endless run -/

theorem run_succ_of_step {M : Host.Core} {s s' : M.State} (h : M.step s = .next s') (k : Nat) :
    M.run (k + 1) s = M.run k s' := by
  rw [Host.Core.run, h]

/-- A state that steps to itself is where any number of steps ends. -/
theorem run_of_step_self {M : Host.Core} {s : M.State} (h : M.step s = .next s) (k : Nat) : M.run k s = .next s := by
  induction k with
  | zero => rfl
  | succ k ih => rw [run_succ_of_step h, ih]

/-- Settles O40: the jump writes the pc with the pc, so the step answers the state itself. -/
theorem selfJumpNeverEnds : Obligations.SelfJumpNeverEnds := by
  intro s a hrun hf hself
  have hjump : writePc (readReg a s) s = s := hself ▸ rfl
  have hstep : step s = .next s := by rw [step_of_fetch_ok hrun hf, exec_jmp_regByte, hjump]
  exact run_of_step_self (M := Sys2Proof.core) hstep

end Sys2Proof.Machine

/-! What an instruction neither reads nor writes: an unnamed register (10_state.md R12), the output log (R24). -/

namespace Sys2Proof.Machine

open Sys2Proof.Spec

/-! ### Changes of the state that an instruction passes by

A change of the state in pieces that an instruction does not look at and does not overwrite can be made before or after it. -/

/-- The change `φ` leaves alone everything an instruction with the register bytes `bs` looks at or writes, PRN's emission not counted. -/
structure PassesBy (bs : List Byte) (φ : State → State) : Prop where
  readReg_eq : ∀ (a : RegId) (s : State), regByte a ∈ bs → readReg a (φ s) = readReg a s
  pc_eq : ∀ s, (φ s).pc = s.pc
  e_eq : ∀ s, (φ s).e = s.e
  writeReg_comm : ∀ (a : RegId) (v : Byte) (s : State), regByte a ∈ bs → writeReg a v (φ s) = φ (writeReg a v s)
  writePc_comm : ∀ (t : Byte) (s : State), writePc t (φ s) = φ (writePc t s)
  writeE_comm : ∀ (f : Bool) (s : State), writeE f (φ s) = φ (writeE f s)
  enterHalted_comm : ∀ s, enterHalted (φ s) = φ (enterHalted s)
  raise_comm : ∀ (o : Option Byte) (c : Cause) (s : State), raise o c (φ s) = φ (raise o c s)

section
variable {bs : List Byte} {φ : State → State} (hφ : PassesBy bs φ)
include hφ

theorem PassesBy.advance_comm (op : Op) (n : Nat) (s : State) : advance op n (φ s) = φ (advance op n s) := by
  simp only [advance, hφ.pc_eq, hφ.raise_comm, hφ.writePc_comm, apply_ite φ]

theorem PassesBy.retire_comm (f : AluOp) (n : Nat) {a : RegId} (ha : regByte a ∈ bs) (rb : Nat) (r : AluResult) (s : State) :
    retire f n a rb r (φ s) = φ (retire f n a rb r s) := by
  cases r with
  | regValue v => simp only [retire, hφ.writeReg_comm a v s ha, hφ.advance_comm]
  | newPc t => exact hφ.writePc_comm t s
  | newFlag b => simp only [retire, hφ.writeE_comm, hφ.advance_comm]
  | noChange => exact hφ.advance_comm _ _ s
  | divisionByZero => exact hφ.raise_comm _ _ s

theorem PassesBy.runF1_comm (f : AluOp) {a : RegId} (ha : regByte a ∈ bs) (s : State) :
    runF1 f (regByte a) (φ s) = φ (runF1 f (regByte a) s) := by
  simp only [runF1_regByte, hφ.readReg_eq a s ha, hφ.e_eq, hφ.retire_comm f 1 ha]

theorem PassesBy.runF2I_comm (f : AluOp) {a : RegId} (ha : regByte a ∈ bs) (imm : Byte) (s : State) :
    runF2I f (regByte a) imm (φ s) = φ (runF2I f (regByte a) imm s) := by
  simp only [runF2I_regByte, hφ.readReg_eq a s ha, hφ.e_eq, hφ.retire_comm f 2 ha]

theorem PassesBy.runF2R_comm (f : AluOp) {a b : RegId} (ha : regByte a ∈ bs) (hb : regByte b ∈ bs) (s : State) :
    runF2R f (regByte a) (regByte b) (φ s) = φ (runF2R f (regByte a) (regByte b) s) := by
  simp only [runF2R_regByte, hφ.readReg_eq a s ha, hφ.readReg_eq b s hb, hφ.e_eq, hφ.retire_comm f 2 ha]

end

/-- An illegal instruction raises and a legal one goes through its operand form. Both commute with a change they pass by, PRN where its emission
does. -/
theorem exec_comm {i : Instr} {φ : State → State} {s t : State} (hφ : PassesBy i.regBytes φ)
    (hemit : ∀ a : RegId, i = .prn (regByte a) → ∀ (v : Byte) (s : State), emit v (φ s) = φ (emit v s)) (h : exec i s = .next t) :
    exec i (φ s) = .next (φ t) := by
  cases hbad : i.regBytes.find? fun b => decide (7 < b.toNat) with
  | some b =>
    cases (registerIndexFaults i s b hbad).symm.trans h
    have hraise := hφ.raise_comm (some (opcodeByte (instrOp i))) ⟨.registerIndexOutOfRange, b.toNat⟩ s
    exact (registerIndexFaults i (φ s) b hbad).trans (congrArg _ hraise)
  | none =>
    cases execForm i with
    | hlt hi => subst hi; cases h; exact congrArg _ (hφ.enterHalted_comm s)
    | prn ra hi =>
      subst hi
      obtain ⟨a, rfl⟩ := exists_regByte_of_find?_singleton hbad
      cases (execPrn_regByte a s).symm.trans h
      refine (execPrn_regByte a (φ s)).trans ?_
      rw [hφ.readReg_eq a s (List.mem_singleton_self _), hemit _ rfl, hφ.advance_comm]
    | ldi ra imm hi =>
      subst hi
      obtain ⟨a, rfl⟩ := exists_regByte_of_find?_singleton hbad
      cases h
      exact congrArg _ (hφ.runF2I_comm .ldi (List.mem_singleton_self _) imm s)
    | f1 f ra _ hreg hexec =>
      rw [hreg] at hbad hφ
      obtain ⟨a, rfl⟩ := exists_regByte_of_find?_singleton hbad
      rw [hexec] at h ⊢; cases h
      rw [hφ.runF1_comm f (by simp)]
    | f2r f ra rb _ hreg hexec =>
      rw [hreg] at hbad hφ
      obtain ⟨a, b, rfl, rfl⟩ := exists_regByte_of_find?_pair hbad
      rw [hexec] at h ⊢; cases h
      rw [hφ.runF2R_comm f (by simp) (by simp)]

/-! ### An unnamed register -/

theorem writeReg_comm_of_ne {a r : RegId} (h : a ≠ r) (v w : Byte) (s : State) :
    writeReg a v (writeReg r w s) = writeReg r w (writeReg a v s) := by
  have hx : (s.x.set r.val w).set a.val v = (s.x.set a.val v).set r.val w :=
    Vector.set_comm _ _ fun heq => h (Fin.ext heq.symm)
  rw [writeReg, writeReg_x, hx]
  rfl

theorem passesBy_writeReg {bs : List Byte} {r : RegId} (hr : regByte r ∉ bs) (w : Byte) : PassesBy bs (writeReg r w) where
  readReg_eq a s ha := readReg_writeReg_of_ne r a w s (ne_of_apply_ne regByte (ne_of_mem_of_not_mem ha hr).symm)
  pc_eq _ := rfl
  e_eq _ := rfl
  writeReg_comm _ v s ha := writeReg_comm_of_ne (ne_of_apply_ne regByte (ne_of_mem_of_not_mem ha hr)) v w s
  writePc_comm _ _ := rfl
  writeE_comm _ _ := rfl
  enterHalted_comm _ := rfl
  raise_comm _ _ _ := rfl

/-- Settles O47: a write to an unnamed register is a change the instruction passes by, PRN's emission included. -/
theorem unnamedRegistersUntouched : Obligations.UnnamedRegistersUntouched :=
  fun _ _ _ _ v hr h => exec_comm (passesBy_writeReg hr v) (fun _ _ _ _ => rfl) h

/-! ### The output log -/

/-- The state with another output log. -/
def withOut (o : List Byte) (s : State) : State := { s with out := o }

theorem passesBy_withOut (bs : List Byte) (o : List Byte) : PassesBy bs (withOut o) where
  readReg_eq _ _ _ := rfl
  pc_eq _ := rfl
  e_eq _ := rfl
  writeReg_comm _ _ _ _ := rfl
  writePc_comm _ _ := rfl
  writeE_comm _ _ := rfl
  enterHalted_comm _ := rfl
  raise_comm _ _ _ := rfl

theorem withOut_advance (o : List Byte) (op : Op) (n : Nat) (s : State) : withOut o (advance op n s) = advance op n (withOut o s) :=
  ((passesBy_withOut [] o).advance_comm op n s).symm

/-- But for the log itself, another output log before an instruction makes no difference after it: PRN appends to either. -/
theorem exec_ignores_out {i : Instr} {s t : State} (o : List Byte) (h : exec i s = .next t) :
    ∃ t', exec i (withOut o s) = .next t' ∧ withOut [] t' = withOut [] t := by
  by_cases hprn : ∃ a : RegId, i = .prn (regByte a)
  · obtain ⟨a, rfl⟩ := hprn
    cases (execPrn_regByte a s).symm.trans h
    refine ⟨_, execPrn_regByte a (withOut o s), ?_⟩
    rw [withOut_advance, withOut_advance]
    rfl
  · exact ⟨_, exec_comm (passesBy_withOut _ o) (fun a hi => absurd ⟨a, hi⟩ hprn) h, rfl⟩

theorem step_out_cases {s t : State} (h : step s = .next t) : t.out = s.out ∨ ∃ v, t.out = s.out ++ [v] := by
  obtain ⟨_, ⟨r, _, rfl⟩ | ⟨i, _, hexec⟩⟩ := step_cases s t h
  · exact .inl (fetchFault_out r s)
  · exact (exec_out_cases hexec).imp_right fun ⟨a, _, hout⟩ => ⟨readReg a s, hout⟩

/-- Settles O48: PRN alone appends, one byte; no instruction looks at the log. -/
theorem outputOnlyByPrn : Obligations.OutputOnlyByPrn :=
  ⟨fun _ _ _ h => exec_out_cases h, fun _ _ _ o h => exec_ignores_out o h, fun _ _ h => step_out_cases h⟩

end Sys2Proof.Machine
